-- ==== Sys2Proof/Word.lean ====
section
/-! DEFINITION. The two value widths of the engine (00_scope.md R9 to R11: "The only memory widths are
1 bit for data and 32 bits for a program word"). Every other quantity of the pseudocode is a mathematical
integer and is held as a `Nat`. -/

namespace Sys2Proof

/-- One bit of data memory, of the store latch or of the undo trace: 0 or 1 (R9). -/
abbrev Bit := BitVec 1

/-- One 32-bit instruction word, host address, register index or response word (R60, R121, R131). -/
abbrev Word := BitVec 32

end Sys2Proof
end

