-- ==== Sys2Proof/Syntax.lean ====
section
/-! DEFINITION. The woodpecker instruction set: a closed set of four instructions (00_scope.md R1,
30_encoding.md R61), one constructor per row of spec/opcode_table.json. -/

namespace Sys2Proof

/-- An instruction as R71's decoder returns it; a count `n` is the unsigned integer of R13 and R62. -/
inductive Instr where
  /-- `INC n`: increment the address register (R82). -/
  | inc (n : Nat)
  /-- `INV`: invert the addressed bit (R83). -/
  | inv
  /-- `LOAD`: copy the addressed bit into the store latch (R84). -/
  | load
  /-- `CDEC n`: conditionally decrement the address register (R85). -/
  | cdec (n : Nat)
deriving DecidableEq, Repr

end Sys2Proof
end

