-- ==== Sys2Proof/Decode.lean ====
section
/-! DEFINITION. The decoder and the encoder (30_encoding.md R60, R61, R63, R71). -/

namespace Sys2Proof

/-- The field `op`, bits 31:30 (R60). -/
def opField (w : Word) : BitVec 2 := w.extractLsb' 30 2

/-- The field `cnt`, bits 29:0 (R60). -/
def cntField (w : Word) : BitVec 30 := w.extractLsb' 0 30

/-- R71: the decoder, total on every 32-bit word; `INV` and `LOAD` ignore bits 29:0 (R63; log entry 10). No word
is rejected: there are no illegal encodings (R64). -/
def decode (w : Word) : Instr :=
  match opField w with
  | 0b00#2 => .inc (cntField w).toNat
  | 0b01#2 => .inv
  | 0b10#2 => .load
  | 0b11#2 => .cdec (cntField w).toNat

/-- The word of an opcode and a count (R60). -/
def packWord (op : BitVec 2) (cnt : BitVec 30) : Word := op ++ cnt

/-- The opcode of an instruction (R61). -/
def opcodeOf : Instr → BitVec 2
  | .inc _ => 0b00#2
  | .inv => 0b01#2
  | .load => 0b10#2
  | .cdec _ => 0b11#2

/-- The count field of an instruction; the reserved field of `INV` and `LOAD` is written 0 (R63, R68). -/
def countOf : Instr → BitVec 30
  | .inc n => BitVec.ofNat 30 n
  | .inv => 0
  | .load => 0
  | .cdec n => BitVec.ofNat 30 n

/-- The word of a well-formed instruction (R61, R68). -/
def encode (i : Instr) : Word := packWord (opcodeOf i) (countOf i)

/-- The instruction the decoder reads from a table row's bits `w`, the bits above `nbits` zero. An instruction
is one 32-bit word held as one value, with no byte order (20_memory.md R44), so nothing longer is read. -/
def decodeTableWord (nbits w : Nat) : Option Instr :=
  if nbits ≤ 32 then some (decode (BitVec.ofNat 32 (w % 2 ^ nbits))) else none

end Sys2Proof
end

