-- ==== Sys2Proof/Config.lean ====
section
/-! DEFINITION. What the builder of an engine fixes (00_scope.md section 2, R5 to R8). The overflow policy is
fixed to "fault" by R8 and so is no parameter. -/

namespace Sys2Proof

/-- `UNDO_MODE`, how backward undoes `LOAD` (R7). -/
inductive UndoMode where
  /-- The reference: backward re-samples the current memory bit (R103). -/
  | resample
  /-- Backward restores the value the undo trace kept (R29, R103). -/
  | trace
deriving DecidableEq, Repr

/-- The build parameters of one engine, with their bounds (R5, R6): parameters outside the bounds are refused
because no such `Config` can be built (93_implementation_defined.md I19; log entry 4). -/
structure Config where
  /-- `MEM_SIZE`, the number of bits of data memory (R5). -/
  memSize : Nat
  /-- `PROG_CAP`, the number of words the program store can hold (R6). -/
  progCap : Nat
  /-- `UNDO_MODE` (R7). -/
  undoMode : UndoMode
  memSize_pos : 1 ≤ memSize := by decide
  memSize_le : memSize ≤ 4294967296 := by decide
  progCap_le : progCap ≤ 4294967295 := by decide
deriving DecidableEq, Repr

/-- The configuration of `State.reset`: the largest memory and program store the bounds admit (DESIGN CHOICE,
unsafe: the spec leaves both sizes to the builder; log entry 5) and the default `UNDO_MODE` of R7. -/
def Config.default : Config where
  memSize := 4294967296
  progCap := 4294967295
  undoMode := .resample

end Sys2Proof
end

