-- ==== Sys2Proof/Machine/State.lean ====
section
/-! DEFINITION. The state of the engine (10_state.md), the host's commands and the engine's responses
(45_host_interface.md R121, R131), the reasons the model can stop, and the state after reset. -/

namespace Sys2Proof.Machine

/-- An array of single bits held sparsely: (address, bit) pairs with strictly rising addresses, none equal to
what an unlisted address reads as (`Memory.wf`). The cell is the spec's smallest unit, the bit, for "there are
no bytes" (20_memory.md R44; log entry 11). -/
abbrev Memory := List (Nat × Bit)

/-- The two addressing faults the engine raises (60_exceptions.md R140). Taking one is a NEXT state (R142). -/
inductive AddressFault where
  /-- `addr` would move below 0. -/
  | negativeAddress
  /-- `addr` would move to MEM_SIZE or beyond. -/
  | outOfMemory
deriving DecidableEq, Repr

/-- The named result codes of a command (60_exceptions.md R143). -/
inductive Result where
  | ok
  | negativeAddress
  | outOfMemory
  | noopDone
  | noopAtStart
  | badArgument
deriving DecidableEq, Repr

/-- A host command with its arguments (45_host_interface.md R121). -/
inductive Command where
  /-- RESET (R122). -/
  | reset
  /-- FORWARD (R123). -/
  | forward
  /-- BACKWARD (R124). -/
  | backward
  /-- RUN (R125). -/
  | run
  /-- MEM_WRITE: address `a` and `v`, of which only bit 0 is used (R126; log entry 13). -/
  | memWrite (a v : Word)
  /-- MEM_READ: address `a` (R127). -/
  | memRead (a : Word)
  /-- READ_REG: register index `i` (R128). -/
  | readReg (i : Word)
  /-- LOAD_PROGRAM: the words w[0] to w[Lnew − 1]; Lnew is their number (R129; log entry 7). -/
  | loadProgram (words : List Word)
deriving DecidableEq, Repr

/-- A command's response: a 3-bit result code and a 32-bit data word (45_host_interface.md R131). -/
structure Response where
  result : BitVec 3
  data : Word
deriving DecidableEq, Repr

/-- Why a step can stop. Neither reason is an addressing fault of the spec (that is a next state), and neither
arises in a state that satisfies the invariants of 10_state.md R34 (log entry 8). -/
inductive Fault where
  /-- Raised by `INV`, `LOAD` and their undos when `addr` is outside [0, MEM_SIZE), where `MemRead` and `MemWrite`
  are not defined (00_scope.md R11). Safe: no run reaches such a state. -/
  | noSuchAddress (a : Nat)
  /-- Raised when a fetch names a slot at or above L, or the undo trace a slot at or above PROG_CAP (00_scope.md
  R11, 10_state.md R29). Safe: no run reaches such a state. -/
  | noSuchSlot (k : Nat)
deriving DecidableEq, Repr

/-- Why a step can be refused. -/
inductive Refusal where
  /-- Raised only by an arm of `exec` whose instruction has no meaning yet; no arm is one. Safe. -/
  | notModelled (mnemonic : String)
deriving DecidableEq, Repr

/-- The engine (10_state.md R20), with its build parameters, its program store and the two ends of its host
interface. -/
structure State where
  /-- `MEM_SIZE`, `PROG_CAP` and `UNDO_MODE` (R5 to R7). -/
  cfg : Config
  /-- `MEM`, the data memory (R31). -/
  mem : Memory
  /-- `addr`, the address register (R22; a plain integer, log entry 12). -/
  addr : Nat
  /-- `store`, the store latch (R23). -/
  store : Bit
  /-- `step`, the program counter (R24). -/
  step : Nat
  /-- `FLT`, the fault latch (R27). -/
  flt : BitVec 2
  /-- `LAST`, the last step result (R28). -/
  last : BitVec 3
  /-- `UNDO`, the undo trace; stays empty unless UNDO_MODE is TRACE (R29; log entry 16). -/
  undo : Memory
  /-- `PROG[0]` to `PROG[L − 1]`; `L` is its length (R30; log entry 7). -/
  prog : List Word
  /-- The MODEL's own: the commands the host has issued and the engine not yet processed, oldest first (R120;
  log entry 1). -/
  cmds : List Command
  /-- The MODEL's own: the responses returned so far, newest first (R131; log entry 2). -/
  responses : List Response
deriving DecidableEq, Repr

/-- The power-on state of an engine built with parameters `c` (70_reset_and_hazards.md R160, R161): L = 0 and
every register and bit 0. No command has been issued. -/
def State.powerOn (c : Config) : State where
  cfg := c
  mem := []
  addr := 0
  store := 0
  step := 0
  flt := 0
  last := 0
  undo := []
  prog := []
  cmds := []
  responses := []

/-- The machine right after reset, with no program loaded (R160, R161), for the configuration of log entry 5. -/
def State.reset : State := State.powerOn Config.default

end Sys2Proof.Machine
end

