-- ==== Sys2Proof/Machine/Ops.lean ====
section
/-! DEFINITION. The named operations of the pseudocode: bit arrays, register writes, the result and fault codes,
how an instruction's block ends, taking an addressing fault, and reset. -/

namespace Sys2Proof.Machine

/-! ### Bit arrays (MEM and UNDO) -/

/-- What an unlisted address reads as: every bit is 0 at reset (10_state.md R31, R29). -/
def unlistedBit : Bit := 0

/-- The canonical form of a bit array. -/
abbrev Memory.wf (m : Memory) : Prop :=
  List.Pairwise (fun c d => c.1 < d.1) m ∧ ∀ c ∈ m, c.2 ≠ unlistedBit

/-- Every listed address is below `size`. -/
abbrev Memory.within (size : Nat) (m : Memory) : Prop := ∀ c ∈ m, c.1 < size

/-- The bit at an address (R11 `MemRead`). -/
def Memory.read : Memory → Nat → Bit
  | [], _ => unlistedBit
  | (b, v) :: m, a => if a = b then v else Memory.read m a

/-- Puts a cell in front unless it holds what an unlisted address reads as. -/
def Memory.consCell (a : Nat) (v : Bit) (m : Memory) : Memory :=
  if v = unlistedBit then m else (a, v) :: m

/-- Sets the bit at an address (R11 `MemWrite`), keeping the canonical form. -/
def Memory.write : Memory → Nat → Bit → Memory
  | [], a, v => Memory.consCell a v []
  | (b, x) :: m, a, v =>
    if a < b then Memory.consCell a v ((b, x) :: m)
    else if a = b then Memory.consCell a v m
    else (b, x) :: Memory.write m a v

/-! ### Codes -/

/-- The 3-bit code of a result (60_exceptions.md R143). -/
def Result.code : Result → BitVec 3
  | .ok => 0
  | .negativeAddress => 1
  | .outOfMemory => 2
  | .noopDone => 3
  | .noopAtStart => 4
  | .badArgument => 5

/-- An addressing fault as a result (R140, R143). -/
def AddressFault.result : AddressFault → Result
  | .negativeAddress => .negativeAddress
  | .outOfMemory => .outOfMemory

/-- The 2-bit code of an addressing fault in `FLT` (R27, R140). -/
def AddressFault.code : AddressFault → BitVec 2
  | .negativeAddress => 1
  | .outOfMemory => 2

/-- The 3-bit code of a command (45_host_interface.md R121). -/
def Command.code : Command → BitVec 3
  | .reset => 0
  | .forward => 1
  | .backward => 2
  | .run => 3
  | .memWrite _ _ => 4
  | .memRead _ => 5
  | .readReg _ => 6
  | .loadProgram _ => 7

/-! ### Register writes -/

/-- `addr <- a`. -/
def State.withAddr (s : State) (a : Nat) : State := { s with addr := a }

/-- `store <- b`. -/
def State.withStore (s : State) (b : Bit) : State := { s with store := b }

/-- `MemWrite(a, 1, v)`. -/
def State.writeMem (s : State) (a : Nat) (v : Bit) : State := { s with mem := s.mem.write a v }

/-- `UNDO[k] <- b`. -/
def State.writeUndo (s : State) (k : Nat) (b : Bit) : State := { s with undo := s.undo.write k b }

/-- `LAST <- r`. -/
def State.withLast (s : State) (r : Result) : State := { s with last := r.code }

/-- `step <- k; LAST <- OK`: the end of a completed Forward or Backward (40_forward.md R80, 41_backward.md R100). -/
def State.completeAt (s : State) (k : Nat) : State := { s with step := k, last := Result.ok.code }

/-! ### Taking an addressing fault -/

/-- Takes an addressing fault (60_exceptions.md R142): everything as before the instruction, `LAST` the fault's
code, and `FLT` the fault's code if it was 0 (the first fault since reset, R27). There is no return from it and no
handler (R144). -/
def State.takeAddressFault (s : State) (f : AddressFault) : State :=
  { s with flt := if s.flt = 0 then f.code else s.flt, last := f.result.code }

/-! ### How an instruction's block ends -/

/-- The end of one instruction rule, run as one indivisible transaction (00_scope.md R12). -/
inductive Block where
  /-- It ended without a `raise`; the state holds its writes. -/
  | done (s : State)
  /-- It executed `raise`; none of its ordinary writes is made. -/
  | raised (f : AddressFault)
  /-- It named a bit or slot that does not exist (log entry 8). -/
  | stopped (f : Fault)

/-- The sequencer's commit around one block (R80 and R100): a block that ended moves `step` to `k` and sets `LAST`
to OK; a raise takes the fault in the state as it was, with `step` unchanged. -/
def commit (k : Nat) (s : State) : Block → Host.Outcome State Fault Refusal
  | .done t => .next (t.completeAt k)
  | .raised f => .next (s.takeAddressFault f)
  | .stopped f => .fault f

/-! ### Reset -/

/-- `Reset()` (70_reset_and_hazards.md R160): `PROG`, `L` and the parameters are unchanged. -/
def State.resetEngine (s : State) : State :=
  { s with mem := [], addr := 0, store := 0, step := 0, flt := 0, last := Result.ok.code, undo := [] }

/-- `PROG` and `L` replaced together (45_host_interface.md R129). -/
def State.withProgram (s : State) (ws : List Word) : State := { s with prog := ws }

/-! ### The host interface's two ends -/

/-- The response of result `r` and data `d` (R131). -/
def Response.of (r : Result) (d : Word) : Response := { result := r.code, data := d }

/-- The oldest command is done: `rest` is left, and the response is returned (R120, R131). -/
def State.answer (s : State) (rest : List Command) (r : Response) : State :=
  { s with cmds := rest, responses := r :: s.responses }

/-- The host issues the commands `cs`, in order (R120). -/
def State.issue (s : State) (cs : List Command) : State := { s with cmds := s.cmds ++ cs }

end Sys2Proof.Machine
end

