-- ==== Sys2Proof/Machine/Operands.lean ====
section
/-! DEFINITION. What the four instructions and their undos do to their operands: the two range-checked moves of
`addr`, the gate of `store`, and the access to the addressed bit. Every check compares exact integers
(10_state.md R22, 40_forward.md R88). -/

namespace Sys2Proof.Machine

/-- Moves `addr` up by `n`, or raises OutOfMemory: `INC` (R82) and the undo of `CDEC` (R104). -/
def moveUp (n : Nat) (s : State) : Block :=
  if s.addr + n ≥ s.cfg.memSize then .raised .outOfMemory else .done (s.withAddr (s.addr + n))

/-- Moves `addr` down by `n`, or raises NegativeAddress: `CDEC` (R85) and the undo of `INC` (R101). -/
def moveDown (n : Nat) (s : State) : Block :=
  if n > s.addr then .raised .negativeAddress else .done (s.withAddr (s.addr - n))

/-- Runs `move` if the store latch is 1 and has no effect otherwise (R85, R104). -/
def gatedByStore (move : State → Block) (s : State) : Block :=
  if s.store = 1 then move s else .done s

/-- Reads the bit at `addr` for `k`; outside [0, MEM_SIZE) there is no bit to read (00_scope.md R11; log entry 8). -/
def withAddressedBit (s : State) (k : Bit → Block) : Block :=
  if s.addr < s.cfg.memSize then k (s.mem.read s.addr) else .stopped (.noSuchAddress s.addr)

/-- Flips the bit at `addr`: `INV` (R83) and its undo (R102). -/
def flipAddressed (s : State) : Block :=
  withAddressedBit s fun b => .done (s.writeMem s.addr (~~~b))

/-- Copies the bit at `addr` into the store latch: `LOAD` (R84) and its undo under RESAMPLE (R103). -/
def sampleAddressed (s : State) : Block :=
  withAddressedBit s fun b => .done (s.withStore b)

/-- `LOAD` under TRACE: keeps the store latch of before the load in `UNDO[step]`, then samples (R84). -/
def traceThenSample (s : State) : Block :=
  if s.step < s.cfg.progCap then sampleAddressed (s.writeUndo s.step s.store)
  else .stopped (.noSuchSlot s.step)

/-- The undo of `LOAD` under TRACE: the store latch takes `UNDO[k]` (R103). -/
def restoreFromTrace (k : Nat) (s : State) : Block :=
  if k < s.cfg.progCap then .done (s.withStore (s.undo.read k)) else .stopped (.noSuchSlot k)

end Sys2Proof.Machine
end

