-- ==== Sys2Proof/Machine/AddressMoves.lean ====
section
/-! DEFINITION. `INC` and `CDEC`, forward and backward. -/

namespace Sys2Proof.Machine

/-- `INC n` (40_forward.md R82), committed by the forward sequencer (R80). -/
def execInc (n : Nat) (s : State) : Host.Outcome State Fault Refusal :=
  commit (s.step + 1) s (moveUp n s)

/-- `CDEC n` (40_forward.md R85), committed by the forward sequencer (R80). -/
def execCdec (n : Nat) (s : State) : Host.Outcome State Fault Refusal :=
  commit (s.step + 1) s (gatedByStore (moveDown n) s)

/-- The undo of `INC n` at slot `k` (41_backward.md R101): ungated (90_conflicts.md C6). -/
def undoInc (n k : Nat) (s : State) : Host.Outcome State Fault Refusal :=
  commit k s (moveDown n s)

/-- The undo of `CDEC n` at slot `k` (41_backward.md R104): gated by the current `store`. -/
def undoCdec (n k : Nat) (s : State) : Host.Outcome State Fault Refusal :=
  commit k s (gatedByStore (moveUp n) s)

end Sys2Proof.Machine
end

