-- ==== Sys2Proof/Machine/BitAccess.lean ====
section
/-! DEFINITION. `INV` and `LOAD`, forward and backward. -/

namespace Sys2Proof.Machine

/-- `INV` (40_forward.md R83), committed by the forward sequencer (R80). -/
def execInv (s : State) : Host.Outcome State Fault Refusal :=
  commit (s.step + 1) s (flipAddressed s)

/-- `LOAD` (40_forward.md R84), committed by the forward sequencer (R80). -/
def execLoad (s : State) : Host.Outcome State Fault Refusal :=
  match s.cfg.undoMode with
  | .resample => commit (s.step + 1) s (sampleAddressed s)
  | .trace => commit (s.step + 1) s (traceThenSample s)

/-- The undo of `INV` at slot `k` (41_backward.md R102). -/
def undoInv (k : Nat) (s : State) : Host.Outcome State Fault Refusal :=
  commit k s (flipAddressed s)

/-- The undo of `LOAD` at slot `k` (41_backward.md R103). -/
def undoLoad (k : Nat) (s : State) : Host.Outcome State Fault Refusal :=
  match s.cfg.undoMode with
  | .resample => commit k s (sampleAddressed s)
  | .trace => commit k s (restoreFromTrace k s)

end Sys2Proof.Machine
end

