-- ==== Sys2Proof/Machine/Dispatch.lean ====
section
/-! DEFINITION. The 4-way dispatch of the forward sequencer (40_forward.md R81). -/

namespace Sys2Proof.Machine

def exec (i : Instr) (s : State) : Host.Outcome State Fault Refusal :=
  match i with
  | .inc n => Sys2Proof.Machine.execInc n s
  | .inv => Sys2Proof.Machine.execInv s
  | .load => Sys2Proof.Machine.execLoad s
  | .cdec n => Sys2Proof.Machine.execCdec n s

end Sys2Proof.Machine
end

