-- ==== Sys2Proof/Machine/Flags.lean ====
section
/-! DEFINITION. The values computed from the state: `L`, `done`, the phase, the STATUS word and the register map
(10_state.md R25, R26, R32, R33). No instruction sets a carry, zero or overflow flag (R32). -/

namespace Sys2Proof.Machine

/-- `L`, the length of the loaded program (10_state.md R30). -/
def State.progLen (s : State) : Nat := s.prog.length

/-- `done`: step == L (R25). -/
def State.done (s : State) : Bool := s.step == s.progLen

/-- The controller's phases (R26). -/
inductive Phase where
  | ready
  | done
deriving DecidableEq, Repr

/-- The phase, computed from `step` (R26). -/
def State.phase (s : State) : Phase := if s.done then .done else .ready

/-- A Boolean as one bit, false = 0 and true = 1 (00_scope.md R9). -/
def bitOf (b : Bool) : Bit := BitVec.ofBool b

/-- The UNDO_TRACE field: 1 when UNDO_MODE is TRACE (R33). -/
def undoTraceBit (c : Config) : Bit :=
  match c.undoMode with
  | .resample => 0
  | .trace => 1

/-- The STATUS word, 24 zeros, UNDO_TRACE, LAST, FLT, STORE, DONE from the top (R33; 45_host_interface.md R128). -/
def State.status (s : State) : Word :=
  0#24 ++ undoTraceBit s.cfg ++ s.last ++ s.flt ++ s.store ++ bitOf s.done

/-- The host-visible register map; a reserved index reads nothing (R33). `zext_32` of a value is the word of that
value; every value fits while the invariants of R34 hold (log entry 22). -/
def State.register (s : State) (i : Word) : Option Word :=
  match i.toNat with
  | 0 => some s.status
  | 1 => some (BitVec.ofNat 32 s.addr)
  | 2 => some (BitVec.ofNat 32 s.step)
  | 3 => some (BitVec.ofNat 32 s.progLen)
  | 4 => some (BitVec.ofNat 32 (s.cfg.memSize - 1))
  | _ => none

end Sys2Proof.Machine
end

