-- ==== Sys2Proof/Machine/Sequencer.lean ====
section
/-! DEFINITION. The forward sequencer, the undo dispatch, the backward sequencer and the run loop
(40_forward.md R80, 41_backward.md R100 and R105, 45_host_interface.md R125). -/

namespace Sys2Proof.Machine

/-- The word at slot `k` of the program store, if `k < L` (00_scope.md R11). -/
def State.fetch (s : State) (k : Nat) : Option Word := s.prog[k]?

/-- `Forward()` (R80). -/
def forward (s : State) : Host.Outcome State Fault Refusal :=
  if s.done then .next (s.withLast .noopDone)
  else
    match s.fetch s.step with
    | some w => exec (decode w) s
    | none => .fault (.noSuchSlot s.step)

/-- `Undo(op, n, k)` (R105). -/
def undo (i : Instr) (k : Nat) (s : State) : Host.Outcome State Fault Refusal :=
  match i with
  | .inc n => undoInc n k s
  | .inv => undoInv k s
  | .load => undoLoad k s
  | .cdec n => undoCdec n k s

/-- `Backward()` (R100). -/
def backward (s : State) : Host.Outcome State Fault Refusal :=
  match s.step with
  | 0 => .next (s.withLast .noopAtStart)
  | k + 1 =>
    match s.fetch k with
    | some w => undo (decode w) k s
    | none => .fault (.noSuchSlot k)

/-- The loop of `Run()` (R125) with room for `fuel` Forwards. Fuel L − step is enough, since every Forward that
answers OK advances `step` (70_reset_and_hazards.md R170); it is used up only where `step` is above L, and no such
slot exists (log entries 8 and 17). -/
def runLoop : Nat → State → Host.Outcome State Fault Refusal
  | 0, s => .fault (.noSuchSlot s.step)
  | fuel + 1, s =>
    match forward s with
    | .next t => if t.last == Result.ok.code && !t.done then runLoop fuel t else .next t
    | .fault f => .fault f
    | .refused r => .refused r

/-- `Run()` (R125). -/
def run (s : State) : Host.Outcome State Fault Refusal :=
  if s.done then .next (s.withLast .noopDone) else runLoop (s.progLen - s.step) s

end Sys2Proof.Machine
end

