-- ==== Sys2Proof/WellFormed.lean ====
section
/-! DEFINITION. The checks on an instruction and on an engine's build parameters. -/

namespace Sys2Proof

/-- A count fits the 30-bit field `cnt`: 0 to 2^30 − 1 (30_encoding.md R62). -/
def countInRange (n : Nat) : Bool := decide (n < 1073741824)

/-- An instruction some word encodes (R61, R62). -/
def Instr.wellFormed : Instr → Bool
  | .inc n => countInRange n
  | .inv => true
  | .load => true
  | .cdec n => countInRange n

/-- The bounds on the build parameters (00_scope.md R5 and R6). -/
def parametersInBounds (memSize progCap : Nat) : Bool :=
  decide (1 ≤ memSize) && decide (memSize ≤ 4294967296) && decide (progCap ≤ 4294967295)

end Sys2Proof
end

