-- ==== Sys2Proof/Machine/Commands.lean ====
section
/-! DEFINITION. The eight host commands (45_host_interface.md R121 to R131) and the building of an engine (R135).
Each command is one atomic transaction that returns one response. -/

namespace Sys2Proof.Machine

/-- A command's outcome: the state it leaves and the response it returns. -/
abbrev CommandOutcome := Host.Outcome (State × Response) Fault Refusal

/-- The response of FORWARD, BACKWARD and RUN: the result the step wrote to `LAST`, and data 0 (R123 to R125,
R131). -/
def respondLast : Host.Outcome State Fault Refusal → CommandOutcome
  | .next t => .next (t, { result := t.last, data := 0 })
  | .fault f => .fault f
  | .refused r => .refused r

/-- RESET (R122). -/
def cmdReset (s : State) : CommandOutcome := .next (s.resetEngine, Response.of .ok 0)

/-- FORWARD (R123). -/
def cmdForward (s : State) : CommandOutcome := respondLast (forward s)

/-- BACKWARD (R124). -/
def cmdBackward (s : State) : CommandOutcome := respondLast (backward s)

/-- RUN (R125). -/
def cmdRun (s : State) : CommandOutcome := respondLast (run s)

/-- MEM_WRITE (R126, R130): only bit 0 of `v` is used. -/
def cmdMemWrite (a v : Word) (s : State) : CommandOutcome :=
  if a.toNat ≥ s.cfg.memSize then .next (s, Response.of .badArgument 0)
  else .next (s.writeMem a.toNat (v.extractLsb' 0 1), Response.of .ok 0)

/-- MEM_READ (R127, R130). -/
def cmdMemRead (a : Word) (s : State) : CommandOutcome :=
  if a.toNat ≥ s.cfg.memSize then .next (s, Response.of .badArgument 0)
  else .next (s, Response.of .ok ((s.mem.read a.toNat).setWidth 32))

/-- READ_REG (R128, R130). -/
def cmdReadReg (i : Word) (s : State) : CommandOutcome :=
  match s.register i with
  | some v => .next (s, Response.of .ok v)
  | none => .next (s, Response.of .badArgument 0)

/-- LOAD_PROGRAM (R129, R130): the words are stored as given, then the engine is reset. -/
def cmdLoadProgram (ws : List Word) (s : State) : CommandOutcome :=
  if ws.length > s.cfg.progCap then .next (s, Response.of .badArgument 0)
  else .next ((s.withProgram ws).resetEngine, Response.of .ok 0)

/-- One host command (R121). -/
def performCommand (c : Command) (s : State) : CommandOutcome :=
  match c with
  | .reset => cmdReset s
  | .forward => cmdForward s
  | .backward => cmdBackward s
  | .run => cmdRun s
  | .memWrite a v => cmdMemWrite a v s
  | .memRead a => cmdMemRead a s
  | .readReg i => cmdReadReg i s
  | .loadProgram ws => cmdLoadProgram ws s

/-- One transition: the oldest issued command is performed and answered; with none issued the engine does
nothing, for it "never starts an action of its own" (R120; log entry 3). -/
def processCommand (s : State) : Host.Outcome State Fault Refusal :=
  match s.cmds with
  | [] => .next s
  | c :: rest =>
    match performCommand c s with
    | .next (t, r) => .next (t.answer rest r)
    | .fault f => .fault f
    | .refused r => .refused r

/-- The engine a builder gets for the parameters, in its power-on state; parameters out of bounds are refused
(R135; 00_scope.md R5 and R6; 93_implementation_defined.md I19). -/
def buildEngine (memSize progCap : Nat) (mode : UndoMode) : Option State :=
  if h : 1 ≤ memSize ∧ memSize ≤ 4294967296 ∧ progCap ≤ 4294967295 then
    some (State.powerOn
      { memSize := memSize, progCap := progCap, undoMode := mode,
        memSize_pos := h.1, memSize_le := h.2.1, progCap_le := h.2.2 })
  else none

/-- The program store with the word `w` at slot `k`, lengthened if it ends before that slot. -/
def putWord (prog : List Word) (k : Nat) (w : Word) : List Word :=
  (prog ++ List.replicate (k + 1 - prog.length) 0).set k w

end Sys2Proof.Machine
end

