-- ==== Sys2Proof/Machine/Step.lean ====
section
/-! DEFINITION. One step of the machine, and where it fetches its next instruction. -/

namespace Sys2Proof.Machine

/-- One step: one host command, as one atomic transition (45_host_interface.md R120; 70_reset_and_hazards.md
R169). -/
def step (s : State) : Host.Outcome State Fault Refusal := processCommand s

/-- `s` with a table row's instruction in the slot the next FORWARD fetches, `PROG[step]` (40_forward.md R80), and
that FORWARD issued ahead of any other command. It stands for the host's LOAD_PROGRAM and FORWARD (log entry 6). -/
def State.withFetchWord (s : State) (nbits w : Nat) : State :=
  { s with
    prog := putWord s.prog s.step (BitVec.ofNat 32 (w % 2 ^ nbits)),
    cmds := .forward :: s.cmds }

end Sys2Proof.Machine
end

