-- ==== Sys2Proof/Machine/Assembler.lean ====
section
/-! DEFINITION. The program text, the words it stands for and the errors it can hold (30_encoding.md R66 to R69).
The assembler is no part of the engine (00_scope.md R3); its grammar and words are specified because they fix the
meaning of a program text. -/

namespace Sys2Proof.Machine

/-- A program text or a token: a sequence of characters (log entry 15). -/
abbrev Text := List Char

/-- `ParseError` with its offending token and 0-based line number (R67). -/
structure ParseError where
  token : Text
  line : Nat
deriving DecidableEq, Repr

/-- What a program text stands for: the MEM_SIZE its header asks for, if it has one (R69), and its words (R68). -/
structure Assembly where
  memSize : Option Nat
  words : List Word
deriving DecidableEq, Repr

/-- The pieces of a text between the characters that satisfy `p`. -/
def splitText (p : Char → Bool) : Text → List Text
  | [] => [[]]
  | c :: cs =>
    if p c then [] :: splitText p cs
    else
      match splitText p cs with
      | [] => [[c]]
      | t :: ts => (c :: t) :: ts

/-- `NL` of R66: lines are separated by LF. -/
def isNewline (c : Char) : Bool := c == '\n'

/-- `ws` of R66: space, tab and CR. -/
def isBlank (c : Char) : Bool := c == ' ' || c == '\t' || c == '\r'

/-- The lines of a text, numbered from 0 (R66). -/
def textLines (t : Text) : List Text := splitText isNewline t

/-- The tokens of a line: its maximal runs of characters that are no whitespace. -/
def lineTokens (l : Text) : List Text := (splitText isBlank l).filter fun t => !t.isEmpty

/-- `digit` of R66. -/
def isDigitChar (c : Char) : Bool := decide (48 ≤ c.toNat) && decide (c.toNat ≤ 57)

/-- The value of a run of decimal digits. -/
def decimalValue (t : Text) : Nat := t.foldl (fun v c => 10 * v + (c.toNat - 48)) 0

/-- One or more decimal digits, with no sign and no base prefix; leading zeros are allowed (R66). -/
def decimal? (t : Text) : Option Nat :=
  if !t.isEmpty && t.all isDigitChar then some (decimalValue t) else none

/-- A count: a decimal of at most 2^30 − 1 (R66). -/
def count? (t : Text) : Option Nat :=
  match decimal? t with
  | some n => if countInRange n then some n else none
  | none => none

/-- The tokens after `INC` or `CDEC`: none (the count is 1, R62), or a count; else the first offending token (R67). -/
def countOperand (f : Nat → Instr) : List Text → Except Text (Option Instr)
  | [] => .ok (some (f 1))
  | t :: rest =>
    match count? t with
    | none => .error t
    | some n =>
      match rest with
      | [] => .ok (some (f n))
      | extra :: _ => .error extra

/-- The tokens after `INV` or `LOAD`: none (R67). -/
def noOperand (i : Instr) : List Text → Except Text (Option Instr)
  | [] => .ok (some i)
  | t :: _ => .error t

/-- The mnemonics' spelling, case-sensitive (R66). -/
def mnemonicText : Instr → Text
  | .inc _ => ['I', 'N', 'C']
  | .inv => ['I', 'N', 'V']
  | .load => ['L', 'O', 'A', 'D']
  | .cdec _ => ['C', 'D', 'E', 'C']

/-- One line's tokens: nothing, an instruction, or the first offending token (R66, R67). -/
def assembleTokens : List Text → Except Text (Option Instr)
  | [] => .ok none
  | m :: rest =>
    if m = mnemonicText (.inc 0) then countOperand .inc rest
    else if m = mnemonicText (.cdec 0) then countOperand .cdec rest
    else if m = mnemonicText .inv then noOperand .inv rest
    else if m = mnemonicText .load then noOperand .load rest
    else .error m

/-- The instruction lines from line `n` on, in order; blank lines make no instruction but are counted (R66, R68). -/
def assembleLines : Nat → List Text → Except ParseError (List Word)
  | _, [] => .ok []
  | n, l :: ls =>
    match assembleTokens (lineTokens l) with
    | .error t => .error { token := t, line := n }
    | .ok none => assembleLines (n + 1) ls
    | .ok (some i) =>
      match assembleLines (n + 1) ls with
      | .error e => .error e
      | .ok ws => .ok (encode i :: ws)

/-- The MEM_SIZE a header line asks for: a label token ending in a colon, then a decimal integer (R69; log
entry 14). -/
def headerSize? (l : Text) : Option Nat :=
  match lineTokens l with
  | [label, size] => if label.getLast? = some ':' then decimal? size else none
  | _ => none

/-- The lines of a program as its assembly, under the header already read. -/
def assembleBody (memSize : Option Nat) (n : Nat) (ls : List Text) : Except ParseError Assembly :=
  match assembleLines n ls with
  | .error e => .error e
  | .ok ws => .ok { memSize := memSize, words := ws }

/-- R66 to R69: line 0 is the header if it reads as one and an LF ends it (log entry 14); every other line is an
instruction line or blank. -/
def assemble (t : Text) : Except ParseError Assembly :=
  match textLines t with
  | first :: second :: rest =>
    match headerSize? first with
    | some m => assembleBody (some m) 1 (second :: rest)
    | none => assembleBody none 0 (first :: second :: rest)
  | ls => assembleBody none 0 ls

/-- Whether an engine of parameters `c` is one a program's header allows: one with exactly the MEM_SIZE asked for. On any
other engine the host refuses the program (R69; 92_eei_decisions.md D23). -/
def Assembly.fits (a : Assembly) (c : Config) : Bool :=
  match a.memSize with
  | none => true
  | some m => decide (m = c.memSize)

/-- One instruction as text, its count written out in decimal (R66). -/
def instrText (i : Instr) : Text :=
  match i with
  | .inc n => mnemonicText i ++ ' ' :: Nat.toDigits 10 n
  | .cdec n => mnemonicText i ++ ' ' :: Nat.toDigits 10 n
  | .inv => mnemonicText i
  | .load => mnemonicText i

/-- A program as text, one instruction per line (R66). -/
def programText (p : List Instr) : Text := p.flatMap fun i => instrText i ++ ['\n']

end Sys2Proof.Machine
end

