-- ==== Sys2Proof/Machine/Harness.lean ====
section
/-! DEFINITION. What the grading harness does with the engine (45_host_interface.md R133, 20_memory.md R44 and R46).
It is host behaviour outside the block (00_scope.md R3): no rule of the engine reads any of it. -/

namespace Sys2Proof.Machine

/-- The open host parameter `HARNESS_FAULT_POLICY` (R133; 92_eei_decisions.md D21). -/
inductive HarnessFaultPolicy where
  /-- A faulted trial's output is compared like any other. -/
  | inert
  /-- A trial with FLT ≠ 0 fails. -/
  | fail
deriving DecidableEq, Repr

/-- The MEM_WRITEs of the bits `bits` at the addresses from `a` on (R133). -/
def inputCommands : Nat → List Bit → List Command
  | _, [] => []
  | a, b :: bs => .memWrite (BitVec.ofNat 32 a) (b.setWidth 32) :: inputCommands (a + 1) bs

/-- The MEM_READs of the window [a, a + len) (R133). -/
def windowCommands (a len : Nat) : List Command :=
  (List.range' a len).map fun k => .memRead (BitVec.ofNat 32 k)

/-- One trial: RESET, the input bits from address 0, FORWARD exactly L times, then the output window that starts
right after the input (R133, R46). That both fit MEM_SIZE is not checked here (log entry 24). -/
def trialCommands (progLen : Nat) (input : List Bit) (outLen : Nat) : List Command :=
  .reset :: inputCommands 0 input ++ List.replicate progLen .forward ++ windowCommands input.length outLen

/-- Whether the state after a trial passes it: the output window holds the expected bits, and, where the policy asks
for it, no fault happened (R133). DESIGN CHOICE (unsafe; log entry 24): 20_memory.md R46 quotes "Output length ≤ memory
length − input length" and does not say what a trial does where that fails; nothing checks it here, and a bit of the
window at or above MEM_SIZE is compared as 0, the data of MEM_READ's BAD_ARGUMENT response (R127). -/
def trialPasses (p : HarnessFaultPolicy) (inputLen : Nat) (expected : List Bit) (s : State) : Bool :=
  (List.range' inputLen expected.length).map s.mem.read == expected &&
    match p with
    | .inert => true
    | .fail => s.flt == 0

/-- The little-endian layout of a number as `len` bits: bit `i` has weight 2^i (R44, which marks this reading as
general knowledge; PRESUMED, log entry 19). -/
def littleEndianBits (len v : Nat) : List Bit := (List.range len).map fun i => BitVec.ofBool (v.testBit i)

end Sys2Proof.Machine
end

