-- ==== Sys2Proof/Safety.lean ====
section
/-! DEFINITION. The terms claims about the engine are made in: its invariants, what a run is, and what the undo trace
remembers. -/

namespace Sys2Proof.Machine

/-- What holds after every command: 10_state.md R34, with the canonical form and the range of the two bit arrays and
the shape of the responses (45_host_interface.md R131). -/
structure State.Inv (s : State) : Prop where
  addr_lt : s.addr < s.cfg.memSize
  step_le : s.step ≤ s.progLen
  progLen_le : s.progLen ≤ s.cfg.progCap
  flt_ne : s.flt ≠ 3
  last_le : s.last.toNat ≤ 4
  mem_wf : s.mem.wf
  mem_within : s.mem.within s.cfg.memSize
  undo_wf : s.undo.wf
  undo_within : s.undo.within s.cfg.progCap
  undo_resample : s.cfg.undoMode = .resample → s.undo = []
  responses_le : ∀ r ∈ s.responses, r.result.toNat ≤ 5

/-- A run is complete: done, and no fault since reset (45_host_interface.md R134). -/
def State.complete (s : State) : Bool := s.done && s.flt == 0

/-- A run is faulted (R134). -/
def State.faulted (s : State) : Bool := s.flt != 0

/-- A step result that is an addressing fault (60_exceptions.md R143). -/
def isFaultCode (r : BitVec 3) : Bool :=
  r == Result.negativeAddress.code || r == Result.outOfMemory.code

/-- `n` steps, stopping at the first that answers no next state: `n` commands in issue order (R120). -/
def stepTimes : Nat → State → Host.Outcome State Fault Refusal
  | 0, s => .next s
  | n + 1, s =>
    match step s with
    | .next t => stepTimes n t
    | .fault f => .fault f
    | .refused r => .refused r

/-- `n` Forwards that all answer OK, from `s` to the state they leave; none if one does not (R80). -/
def forwardsOk : Nat → State → Option State
  | 0, s => some s
  | n + 1, s =>
    match forward s with
    | .next t => if t.last == Result.ok.code then forwardsOk n t else none
    | _ => none

/-- `n` Backwards that all answer OK, from `s` to the state they leave; none if one does not (R100). -/
def backwardsOk : Nat → State → Option State
  | 0, s => some s
  | n + 1, s =>
    match backward s with
    | .next t => if t.last == Result.ok.code then backwardsOk n t else none
    | _ => none

/-- `n` executions of the instruction `i` that all answer OK, from `s` to the state they leave (40_forward.md R90). -/
def execTimes : Nat → Instr → State → Option State
  | 0, _, s => some s
  | n + 1, i, s =>
    match exec i s with
    | .next t => if t.last == Result.ok.code then execTimes n i t else none
    | _ => none

/-- The engine `s` rebuilt with `UNDO_MODE` RESAMPLE, which has no undo trace (R7, R29). -/
def State.rebuiltResample (s : State) : State :=
  { s with cfg := { s.cfg with undoMode := .resample }, undo := [] }

/-- The values of (`addr`, `store`) before the instruction `i` that left them `a` and `b`, where `saved` is the undo
trace's bit for its slot: the exact inverses of 41_backward.md R101 to R104 under TRACE; none where an inverse would
leave [0, memSize). -/
def undoPair (memSize : Nat) (i : Instr) (saved : Bit) (a : Nat) (b : Bit) : Option (Nat × Bit) :=
  match i with
  | .inc n => if n ≤ a then some (a - n, b) else none
  | .inv => some (a, b)
  | .load => some (a, saved)
  | .cdec n => if b = 1 then (if a + n < memSize then some (a + n, b) else none) else some (a, b)

/-- The first `j` slots of the program can be undone exactly, from (`a`, `b`) back to the reset values (0, 0)
(41_backward.md R109). -/
def retraces (memSize : Nat) (prog : List Word) (undo : Memory) : Nat → Nat → Bit → Prop
  | 0, a, b => a = 0 ∧ b = 0
  | j + 1, a, b =>
    match prog[j]? with
    | none => False
    | some w =>
      match undoPair memSize (decode w) (undo.read j) a b with
      | none => False
      | some (a', b') => a' < memSize ∧ retraces memSize prog undo j a' b'

/-- Under TRACE the undo trace remembers the current history, PROG[0] to PROG[step − 1] (R108, R109). -/
def State.Retraceable (s : State) : Prop :=
  s.cfg.undoMode = .trace → retraces s.cfg.memSize s.prog s.undo s.step s.addr s.store

end Sys2Proof.Machine
end

