-- ==== Sys2Proof/Certificates/Slice0/Obligations.lean ====
section
/-! DEFINITION. The statements about the model, for the provers. Each docstring names the rule or section of the spec
it formalises. -/

open Sys2Proof Sys2Proof.Machine

/-! ### Encoding -/

/-- 30_encoding.md R61: a few words of the opcode map, written out from it, decode to their instructions. -/
def Obligations.OpcodeMapWordsDecode : Prop :=
  decode 0b00000000000000000000000000000101#32 = .inc 5 ∧
  decode 0b01000000000000000000000000000000#32 = .inv ∧
  decode 0b10000000000000000000000000000000#32 = .load ∧
  decode 0b11000000000000000000000000001001#32 = .cdec 9

/-- R71: the decoder, on every word, by the value of bits 31:30 and of bits 29:0. -/
def Obligations.DecodeByTopTwoBits : Prop :=
  ∀ w : Word,
    (w.toNat / 2 ^ 30 = 0 → decode w = .inc (w.toNat % 2 ^ 30)) ∧
    (w.toNat / 2 ^ 30 = 1 → decode w = .inv) ∧
    (w.toNat / 2 ^ 30 = 2 → decode w = .load) ∧
    (w.toNat / 2 ^ 30 = 3 → decode w = .cdec (w.toNat % 2 ^ 30))

/-- R62 and R64: every word decodes to a well-formed instruction (its count fits 30 bits). -/
def Obligations.DecodedInstructionIsWellFormed : Prop :=
  ∀ w : Word, (decode w).wellFormed = true

/-- R61, R62: decoding the word of a well-formed instruction gives the instruction back. -/
def Obligations.DecodeEncodeGivesInstruction : Prop :=
  ∀ i : Instr, i.wellFormed = true → decode (encode i) = i

/-- R61, R63: encoding a decoded word gives the word back, but for the reserved bits of `INV` and `LOAD`, which come
back as 0. -/
def Obligations.EncodeDecodeClearsReservedBits : Prop :=
  ∀ w : Word,
    (w.toNat / 2 ^ 30 = 0 ∨ w.toNat / 2 ^ 30 = 3 → encode (decode w) = w) ∧
    (w.toNat / 2 ^ 30 = 1 → encode (decode w) = 0x40000000#32) ∧
    (w.toNat / 2 ^ 30 = 2 → encode (decode w) = 0x80000000#32)

/-! ### Program text -/

/-- R68: a program written as text, one instruction per line with its counts in decimal, assembles to the words of its
instructions in order. -/
def Obligations.ProgramTextAssembles : Prop :=
  ∀ p : List Instr, (∀ i ∈ p, i.wellFormed = true) →
    assemble (programText p) = .ok { memSize := none, words := p.map encode }

/-- R69: the same text under a header line asks for the header's MEM_SIZE. That the label may be empty, the colon alone, is
the model's choice (log entry 14). -/
def Obligations.HeaderLineAsksForMemorySize : Prop :=
  ∀ (label : Text) (size : Nat) (p : List Instr),
    (∀ c ∈ label, isBlank c = false ∧ isNewline c = false) → (∀ i ∈ p, i.wellFormed = true) →
    assemble (label ++ ':' :: ' ' :: Nat.toDigits 10 size ++ '\n' :: programText p) =
      .ok { memSize := some size, words := p.map encode }

/-- R67, first kind: a line whose first token is none of the four mnemonics is reported with that token and its
0-based line number, blank lines before it counted. -/
def Obligations.UnknownMnemonicIsReported : Prop :=
  ∀ (blanks : Nat) (token : Text),
    token ≠ [] → (∀ c ∈ token, isBlank c = false ∧ isNewline c = false) →
    token ≠ ['I', 'N', 'C'] → token ≠ ['I', 'N', 'V'] → token ≠ ['L', 'O', 'A', 'D'] → token ≠ ['C', 'D', 'E', 'C'] →
    assemble (List.replicate blanks '\n' ++ token) = .error { token := token, line := blanks }

/-- R67, the other kinds: a token after `INV` or `LOAD`, and a token after `INC` or `CDEC` that is no count, is
reported; so is a third token. -/
def Obligations.BadOperandIsReported : Prop :=
  ∀ token : Text, token ≠ [] → (∀ c ∈ token, isBlank c = false ∧ isNewline c = false) →
    assemble (['I', 'N', 'V', ' '] ++ token) = .error { token := token, line := 0 } ∧
    assemble (['L', 'O', 'A', 'D', ' '] ++ token) = .error { token := token, line := 0 } ∧
    assemble (['I', 'N', 'C', ' ', '2', ' '] ++ token) = .error { token := token, line := 0 } ∧
    assemble (['C', 'D', 'E', 'C', ' ', '2', ' '] ++ token) = .error { token := token, line := 0 } ∧
    ((¬ ∀ c ∈ token, isDigitChar c = true) ∨ 2 ^ 30 ≤ decimalValue token →
      assemble (['I', 'N', 'C', ' '] ++ token) = .error { token := token, line := 0 } ∧
      assemble (['C', 'D', 'E', 'C', ' '] ++ token) = .error { token := token, line := 0 })

/-! ### Build, power-on, reset -/

/-- 00_scope.md R5 and R6: an engine is built exactly for parameters within the bounds, in its power-on state and with
those parameters. -/
def Obligations.EngineBuiltExactlyWithinBounds : Prop :=
  ∀ (memSize progCap : Nat) (mode : UndoMode),
    ((1 ≤ memSize ∧ memSize ≤ 2 ^ 32 ∧ progCap ≤ 2 ^ 32 - 1) →
      ∃ c : Config, c.memSize = memSize ∧ c.progCap = progCap ∧ c.undoMode = mode ∧
        buildEngine memSize progCap mode = some (State.powerOn c)) ∧
    (¬ (1 ≤ memSize ∧ memSize ≤ 2 ^ 32 ∧ progCap ≤ 2 ^ 32 - 1) → buildEngine memSize progCap mode = none)

/-- 70_reset_and_hazards.md R161: the power-on engine holds L = 0 and the reset state, is in DONE, and FORWARD and
BACKWARD are no-ops. -/
def Obligations.PowerOnEngineIsDone : Prop :=
  ∀ c : Config,
    (State.powerOn c).progLen = 0 ∧ (∀ a, (State.powerOn c).mem.read a = 0) ∧ (State.powerOn c).addr = 0 ∧
    (State.powerOn c).store = 0 ∧ (State.powerOn c).step = 0 ∧ (State.powerOn c).flt = 0 ∧
    (State.powerOn c).last = 0 ∧ (∀ k, (State.powerOn c).undo.read k = 0) ∧ (State.powerOn c).phase = .done ∧
    forward (State.powerOn c) = .next { State.powerOn c with last := 3 } ∧
    backward (State.powerOn c) = .next { State.powerOn c with last := 4 }

/-- R160 and 45_host_interface.md R122: what RESET leaves, in every state, and its response. -/
def Obligations.ResetCommandClearsEngine : Prop :=
  ∀ (s : State) (rest : List Command), s.cmds = .reset :: rest →
    ∃ t, step s = .next t ∧ (∀ a, t.mem.read a = 0) ∧ t.addr = 0 ∧ t.store = 0 ∧ t.step = 0 ∧
      t.done = decide (s.progLen = 0) ∧ t.phase = (if s.progLen = 0 then .done else .ready) ∧
      t.flt = 0 ∧ t.last = 0 ∧ (∀ k, t.undo.read k = 0) ∧
      t.prog = s.prog ∧ t.progLen = s.progLen ∧ t.cfg = s.cfg ∧ t.cmds = rest ∧
      t.responses = { result := 0, data := 0 } :: s.responses

/-- R129: LOAD_PROGRAM stores the words as given and resets the engine, or changes nothing if they are too many. -/
def Obligations.LoadProgramStoresWordsAndResets : Prop :=
  ∀ (s : State) (ws : List Word) (rest : List Command), s.cmds = .loadProgram ws :: rest →
    (s.cfg.progCap < ws.length →
      step s = .next { s with cmds := rest, responses := { result := 5, data := 0 } :: s.responses }) ∧
    (ws.length ≤ s.cfg.progCap →
      ∃ t, step s = .next t ∧ t.prog = ws ∧ t.progLen = ws.length ∧ (∀ a, t.mem.read a = 0) ∧ t.addr = 0 ∧
        t.store = 0 ∧ t.step = 0 ∧ t.flt = 0 ∧ t.last = 0 ∧ (∀ k, t.undo.read k = 0) ∧ t.cfg = s.cfg ∧
        t.cmds = rest ∧ t.responses = { result := 0, data := 0 } :: s.responses)

/-- R162: the state right after LOAD_PROGRAM equals the state after a RESET from any state with the same program and
parameters, in everything but the model's own fields `cmds` and `responses`. -/
def Obligations.PostConstructionEqualsPostReset : Prop :=
  ∀ (s s2 : State) (ws : List Word) (rest rest2 : List Command), s.cmds = .loadProgram ws :: rest →
    ws.length ≤ s.cfg.progCap → s2.cmds = .reset :: rest2 → s2.prog = ws → s2.cfg = s.cfg →
    ∃ t t2, step s = .next t ∧ step s2 = .next t2 ∧
      t2 = { t with cmds := t2.cmds, responses := t2.responses }

/-! ### The four instructions, forward -/

/-- 40_forward.md R82: `INC n`, with its encoding and the text's default count. Every field but those written keeps its
value, memory whole. -/
def Obligations.IncMovesAddressUpOrFaults : Prop :=
  ∀ (n : Nat) (s : State),
    (s.addr + n < s.cfg.memSize →
      exec (.inc n) s = .next { s with addr := s.addr + n, step := s.step + 1, last := 0 }) ∧
    (s.cfg.memSize ≤ s.addr + n →
      exec (.inc n) s = .next { s with flt := if s.flt = 0 then 2 else s.flt, last := 2 }) ∧
    (n < 2 ^ 30 → decode (BitVec.ofNat 32 n) = .inc n) ∧
    assemble ['I', 'N', 'C'] = .ok { memSize := none, words := [0x00000001#32] }

/-- R83: `INV` flips the bit at `addr`, every other bit reads as before, every other field keeps its value, and memory
keeps its canonical form; no other instruction writes memory; with its encoding, reserved bits ignored. -/
def Obligations.InvFlipsOnlyAddressedBit : Prop :=
  (∀ s : State, s.addr < s.cfg.memSize → s.mem.wf →
    ∃ m : Memory, exec .inv s = .next { s with mem := m, step := s.step + 1, last := 0 } ∧ m.wf ∧
      ∀ a, m.read a = if a = s.addr then ~~~(s.mem.read a) else s.mem.read a) ∧
  (∀ (i : Instr) (s t : State), exec i s = .next t → t.mem ≠ s.mem → i = .inv) ∧
  ∀ cnt : Nat, cnt < 2 ^ 30 → decode (BitVec.ofNat 32 (0x40000000 + cnt)) = .inv

/-- R84: `LOAD` copies the bit at `addr` into `store`, and under TRACE keeps the old `store` in `UNDO[step]`; every
other field, and all of memory, keeps its value; no other instruction sets `store`; with its encoding, reserved bits
ignored. -/
def Obligations.LoadLatchesAddressedBit : Prop :=
  (∀ s : State, s.addr < s.cfg.memSize →
    (s.cfg.undoMode = .resample →
      exec .load s = .next { s with store := s.mem.read s.addr, step := s.step + 1, last := 0 }) ∧
    (s.cfg.undoMode = .trace → s.step < s.cfg.progCap → s.undo.wf →
      ∃ u : Memory,
        exec .load s = .next { s with store := s.mem.read s.addr, undo := u, step := s.step + 1, last := 0 } ∧
        ∀ k, u.read k = if k = s.step then s.store else s.undo.read k)) ∧
  (∀ (i : Instr) (s t : State), exec i s = .next t → t.store ≠ s.store → i = .load) ∧
  ∀ cnt : Nat, cnt < 2 ^ 30 → decode (BitVec.ofNat 32 (0x80000000 + cnt)) = .load

/-- R85: `CDEC n`, gated by `store`, with its encoding and the text's default count. Every field but those written keeps
its value, memory whole. -/
def Obligations.CdecMovesAddressDownIfStore : Prop :=
  ∀ (n : Nat) (s : State),
    (s.store = 0 → exec (.cdec n) s = .next { s with step := s.step + 1, last := 0 }) ∧
    (s.store = 1 → n ≤ s.addr →
      exec (.cdec n) s = .next { s with addr := s.addr - n, step := s.step + 1, last := 0 }) ∧
    (s.store = 1 → s.addr < n →
      exec (.cdec n) s = .next { s with flt := if s.flt = 0 then 1 else s.flt, last := 1 }) ∧
    (n < 2 ^ 30 → decode (BitVec.ofNat 32 (0xC0000000 + n)) = .cdec n) ∧
    assemble ['C', 'D', 'E', 'C'] = .ok { memSize := none, words := [0xC0000001#32] }

/-- 00_scope.md section 3 (the MODEL's stops, log entry 8): where `addr` names no bit, `INV` and `LOAD` and their undos
stop; where a slot does not exist, the fetch and the undo trace stop. -/
def Obligations.AccessToMissingBitOrSlotStops : Prop :=
  ∀ (s : State) (k : Nat),
    (s.cfg.memSize ≤ s.addr →
      exec .inv s = .fault (.noSuchAddress s.addr) ∧ undo .inv k s = .fault (.noSuchAddress s.addr)) ∧
    (s.cfg.memSize ≤ s.addr → s.cfg.undoMode = .resample →
      exec .load s = .fault (.noSuchAddress s.addr) ∧ undo .load k s = .fault (.noSuchAddress s.addr)) ∧
    (s.cfg.memSize ≤ s.addr → s.cfg.undoMode = .trace → s.step < s.cfg.progCap →
      exec .load s = .fault (.noSuchAddress s.addr)) ∧
    (s.cfg.undoMode = .trace → s.cfg.progCap ≤ s.step → exec .load s = .fault (.noSuchSlot s.step)) ∧
    (s.cfg.undoMode = .trace → s.cfg.progCap ≤ k → undo .load k s = .fault (.noSuchSlot k)) ∧
    (s.progLen < s.step → forward s = .fault (.noSuchSlot s.step) ∧ run s = .fault (.noSuchSlot s.step)) ∧
    (s.step = k + 1 → s.progLen ≤ k → backward s = .fault (.noSuchSlot k))

/-- 40_forward.md section 2 and 95_test_vectors.md S1: two `INV`s in a row at one address leave the memory as it was,
as data. -/
def Obligations.InvTwiceRestoresMemory : Prop :=
  ∀ s : State, s.addr < s.cfg.memSize → s.mem.wf →
    ∃ t, exec .inv s = .next t ∧ exec .inv t = .next { s with step := s.step + 2, last := 0 }

/-- R90: a count is one atomic move. Where nothing faults, `INC n` and n `INC 1`s (`CDEC n` and n `CDEC 1`s with store
1) reach the same `addr`, `step` advancing by 1 and by n. Where it faults, `INC n` (`CDEC n`) leaves `addr`, and the
unit steps stop at MEM_SIZE − 1 (at 0), where the next one faults. -/
def Obligations.CountIsOneAtomicMove : Prop :=
  ∀ (n : Nat) (s : State),
    (s.addr + n < s.cfg.memSize →
      exec (.inc n) s = .next { s with addr := s.addr + n, step := s.step + 1, last := 0 } ∧
      ∃ t, execTimes n (.inc 1) s = some t ∧
        t = { s with addr := s.addr + n, step := s.step + n, last := t.last }) ∧
    (s.addr < s.cfg.memSize → s.cfg.memSize ≤ s.addr + n →
      exec (.inc n) s = .next { s with flt := if s.flt = 0 then 2 else s.flt, last := 2 } ∧
      ∃ t, execTimes (s.cfg.memSize - 1 - s.addr) (.inc 1) s = some t ∧ t.addr = s.cfg.memSize - 1 ∧
        exec (.inc 1) t = .next { t with flt := if s.flt = 0 then 2 else s.flt, last := 2 }) ∧
    (s.store = 1 → n ≤ s.addr →
      exec (.cdec n) s = .next { s with addr := s.addr - n, step := s.step + 1, last := 0 } ∧
      ∃ t, execTimes n (.cdec 1) s = some t ∧
        t = { s with addr := s.addr - n, step := s.step + n, last := t.last }) ∧
    (s.store = 1 → s.addr < n →
      exec (.cdec n) s = .next { s with flt := if s.flt = 0 then 1 else s.flt, last := 1 } ∧
      ∃ t, execTimes s.addr (.cdec 1) s = some t ∧ t.addr = 0 ∧
        exec (.cdec 1) t = .next { t with flt := if s.flt = 0 then 1 else s.flt, last := 1 })

/-- R165: each instruction sees every effect of the one before it: `LOAD` after `INV` at the same `addr` latches the
flipped bit, and `CDEC` after `LOAD` is gated by the new `store`. -/
def Obligations.NextInstructionSeesEffects : Prop :=
  ∀ s t : State, s.mem.wf →
    (exec .inv s = .next t → ∀ u, exec .load t = .next u → u.store = ~~~(s.mem.read s.addr)) ∧
    (exec .load s = .next t → ∀ n, n ≤ s.addr →
      ∃ u, exec (.cdec n) t = .next u ∧ u.addr = if s.mem.read s.addr = 1 then s.addr - n else s.addr)

/-! ### The undo of each instruction -/

/-- 41_backward.md R101: BACKWARD over a slot that holds `INC n`, whatever `store` is. -/
def Obligations.BackwardIncMovesAddressDownOrFaults : Prop :=
  ∀ (s : State) (k n : Nat) (w : Word), s.step = k + 1 → s.prog[k]? = some w → decode w = .inc n →
    w.toNat / 2 ^ 30 = 0 ∧
    (n ≤ s.addr → backward s = .next { s with addr := s.addr - n, step := k, last := 0 }) ∧
    (s.addr < n → backward s = .next { s with flt := if s.flt = 0 then 1 else s.flt, last := 1 })

/-- R102: BACKWARD over a slot that holds `INV` flips the bit at the current `addr` again; every other bit reads as
before. -/
def Obligations.BackwardInvFlipsAddressedBit : Prop :=
  ∀ (s : State) (k : Nat) (w : Word), s.step = k + 1 → s.prog[k]? = some w → decode w = .inv →
    s.addr < s.cfg.memSize → s.mem.wf →
    w.toNat / 2 ^ 30 = 1 ∧
    ∃ m : Memory, backward s = .next { s with mem := m, step := k, last := 0 } ∧
      ∀ a, m.read a = if a = s.addr then ~~~(s.mem.read a) else s.mem.read a

/-- R103: BACKWARD over a slot that holds `LOAD` re-samples the bit at `addr` under RESAMPLE, and restores `store` from
`UNDO[k]` under TRACE. -/
def Obligations.BackwardLoadRestoresStoreByMode : Prop :=
  ∀ (s : State) (k : Nat) (w : Word), s.step = k + 1 → s.prog[k]? = some w → decode w = .load →
    w.toNat / 2 ^ 30 = 2 ∧
    (s.cfg.undoMode = .resample → s.addr < s.cfg.memSize →
      backward s = .next { s with store := s.mem.read s.addr, step := k, last := 0 }) ∧
    (s.cfg.undoMode = .trace → k < s.cfg.progCap →
      backward s = .next { s with store := s.undo.read k, step := k, last := 0 })

/-- R104: BACKWARD over a slot that holds `CDEC n`, gated by the current `store`. -/
def Obligations.BackwardCdecMovesAddressUpIfStore : Prop :=
  ∀ (s : State) (k n : Nat) (w : Word), s.step = k + 1 → s.prog[k]? = some w → decode w = .cdec n →
    w.toNat / 2 ^ 30 = 3 ∧
    (s.store = 0 → backward s = .next { s with step := k, last := 0 }) ∧
    (s.store = 1 → s.addr + n < s.cfg.memSize →
      backward s = .next { s with addr := s.addr + n, step := k, last := 0 }) ∧
    (s.store = 1 → s.cfg.memSize ≤ s.addr + n →
      backward s = .next { s with flt := if s.flt = 0 then 2 else s.flt, last := 2 })

/-! ### The sequencers -/

/-- R80: a Forward at done writes only `LAST`; otherwise it is the fetched word's instruction, which either completes
and advances `step` by 1 or takes an addressing fault in the state as it was. -/
def Obligations.ForwardExecutesFetchedInstruction : Prop :=
  ∀ s : State, s.Inv →
    (s.step = s.progLen → forward s = .next { s with last := 3 }) ∧
    (s.step < s.progLen →
      ∃ w t, s.prog[s.step]? = some w ∧ exec (decode w) s = .next t ∧ forward s = .next t ∧
        ((t.last = 0 ∧ t.step = s.step + 1 ∧ t.flt = s.flt) ∨
          ∃ f : AddressFault, t = { s with flt := if s.flt = 0 then f.code else s.flt, last := f.result.code }))

/-- R100: a Backward at step 0 writes only `LAST`; otherwise it is the undo of the instruction at slot step − 1, which
either completes and moves `step` back by 1 or takes an addressing fault in the state as it was. -/
def Obligations.BackwardUndoesPreviousSlot : Prop :=
  ∀ s : State, s.Inv →
    (s.step = 0 → backward s = .next { s with last := 4 }) ∧
    (∀ k, s.step = k + 1 →
      ∃ w t, s.prog[k]? = some w ∧ undo (decode w) k s = .next t ∧ backward s = .next t ∧
        ((t.last = 0 ∧ t.step = k ∧ t.flt = s.flt) ∨
          ∃ f : AddressFault, t = { s with flt := if s.flt = 0 then f.code else s.flt, last := f.result.code }))

/-- R123 with R80: when FORWARD is the oldest command and the word at the program counter decodes to `i`, the step is
`exec i`, and the command is answered with what it wrote to `LAST`. -/
def Obligations.StepRunsDecodedInstruction : Prop :=
  ∀ (s : State) (rest : List Command) (i : Instr), s.cmds = .forward :: rest → s.step < s.progLen →
    (s.prog[s.step]?).map decode = some i →
    step s =
      match exec i s with
      | .next t => .next { t with cmds := rest, responses := { result := t.last, data := 0 } :: t.responses }
      | .fault f => .fault f
      | .refused r => .refused r

/-- R123 and R124: FORWARD and BACKWARD perform `Forward()` and `Backward()` and return what those wrote to `LAST`,
which is one of the results the rules name. -/
def Obligations.ForwardAndBackwardCommandsAnswerLast : Prop :=
  ∀ (s : State) (rest : List Command), s.Inv →
    (s.cmds = .forward :: rest →
      ∃ t, forward s = .next t ∧ t.last ∈ [0#3, 1#3, 2#3, 3#3] ∧
        step s = .next { t with cmds := rest, responses := { result := t.last, data := 0 } :: s.responses }) ∧
    (s.cmds = .backward :: rest →
      ∃ t, backward s = .next t ∧ t.last ∈ [0#3, 1#3, 2#3, 4#3] ∧
        step s = .next { t with cmds := rest, responses := { result := t.last, data := 0 } :: s.responses })

/-- R125 and R170: RUN at done writes only `LAST`; otherwise it is a sequence of at most L − step Forwards, all but the
last answering OK before L, the last reaching L or faulting; and the command answers what the last one wrote. -/
def Obligations.RunIsForwardsUntilDoneOrFault : Prop :=
  ∀ s : State, s.Inv →
    (s.step = s.progLen → run s = .next { s with last := 3 }) ∧
    (s.step < s.progLen →
      ∃ n u t, s.step + n < s.progLen ∧ forwardsOk n s = some u ∧ u.step = s.step + n ∧ forward u = .next t ∧
        run s = .next t ∧ ((t.last = 0 ∧ t.step = s.progLen) ∨ isFaultCode t.last = true)) ∧
    (∀ rest, s.cmds = .run :: rest →
      ∃ t, run s = .next t ∧
        step s = .next { t with cmds := rest, responses := { result := t.last, data := 0 } :: s.responses })

/-- R87: n Forwards that all answer OK run the slots step, …, step + n − 1 in order, none past L: after j of them, the
next one is `exec` of the instruction decoded from slot step + j. -/
def Obligations.ForwardsRunSlotsInOrder : Prop :=
  ∀ (n : Nat) (s t : State), forwardsOk n s = some t → 0 < n →
    t.step = s.step + n ∧ t.step ≤ s.progLen ∧
    ∀ j, j < n → ∃ u v w, forwardsOk j s = some u ∧ u.step = s.step + j ∧ s.prog[s.step + j]? = some w ∧
      exec (decode w) u = .next v ∧ v.last = 0 ∧ forwardsOk (j + 1) s = some v

/-- R86: a Forward writes only `step`, `LAST` and `FLT`, and, per instruction, `addr`, the bit at `addr`, `store` and
`UNDO[step]`. -/
def Obligations.ForwardWritesOnlyNamedState : Prop :=
  ∀ s t : State, s.mem.wf → s.undo.wf → forward s = .next t →
    t.cfg = s.cfg ∧ t.prog = s.prog ∧ t.cmds = s.cmds ∧ t.responses = s.responses ∧
    (∀ a, t.mem.read a ≠ s.mem.read a → a = s.addr ∧ (s.prog[s.step]?).map decode = some .inv) ∧
    (∀ k, t.undo.read k ≠ s.undo.read k →
      k = s.step ∧ (s.prog[s.step]?).map decode = some .load ∧ s.cfg.undoMode = .trace) ∧
    (t.store ≠ s.store → (s.prog[s.step]?).map decode = some .load) ∧
    (t.addr ≠ s.addr → ∃ n, (s.prog[s.step]?).map decode = some (.inc n) ∨
      (s.prog[s.step]?).map decode = some (.cdec n))

/-- 41_backward.md section 2: what a Backward leaves unchanged. The undo trace is only read. -/
def Obligations.BackwardWritesOnlyNamedState : Prop :=
  ∀ s t : State, s.mem.wf → backward s = .next t →
    t.cfg = s.cfg ∧ t.prog = s.prog ∧ t.undo = s.undo ∧ t.cmds = s.cmds ∧ t.responses = s.responses ∧
    (∀ a, t.mem.read a ≠ s.mem.read a → a = s.addr ∧ (s.prog[s.step - 1]?).map decode = some .inv) ∧
    (t.store ≠ s.store → (s.prog[s.step - 1]?).map decode = some .load) ∧
    (t.addr ≠ s.addr → ∃ n, (s.prog[s.step - 1]?).map decode = some (.inc n) ∨
      (s.prog[s.step - 1]?).map decode = some (.cdec n))

/-! ### Faults -/

/-- 60_exceptions.md R141: which instruction raises which fault, forward and backward, and no other. -/
def Obligations.FaultsRaisedExactlyWhenAddressLeavesRange : Prop :=
  ∀ (s : State) (w : Word), s.Inv →
    (s.prog[s.step]? = some w → ∃ t, forward s = .next t ∧
      (t.last = 2 ↔ ∃ n, decode w = .inc n ∧ s.cfg.memSize ≤ s.addr + n) ∧
      (t.last = 1 ↔ ∃ n, decode w = .cdec n ∧ s.store = 1 ∧ s.addr < n)) ∧
    (∀ k, s.step = k + 1 → s.prog[k]? = some w → ∃ t, backward s = .next t ∧
      (t.last = 1 ↔ ∃ n, decode w = .inc n ∧ s.addr < n) ∧
      (t.last = 2 ↔ ∃ n, decode w = .cdec n ∧ s.store = 1 ∧ s.cfg.memSize ≤ s.addr + n))

/-- R142: a fault in Forward or Backward leaves everything but `FLT` and `LAST`, `FLT` keeps the first fault, and the
response returns the fault code. -/
def Obligations.FaultChangesOnlyStatusRegisters : Prop :=
  ∀ (s t : State) (rest : List Command),
    (forward s = .next t → isFaultCode t.last = true →
      (∃ f : AddressFault, t = { s with flt := if s.flt = 0 then f.code else s.flt, last := f.result.code }) ∧
      (s.cmds = .forward :: rest →
        step s = .next { t with cmds := rest, responses := { result := t.last, data := 0 } :: s.responses })) ∧
    (backward s = .next t → isFaultCode t.last = true →
      (∃ f : AddressFault, t = { s with flt := if s.flt = 0 then f.code else s.flt, last := f.result.code }) ∧
      (s.cmds = .backward :: rest →
        step s = .next { t with cmds := rest, responses := { result := t.last, data := 0 } :: s.responses }))

/-- 10_state.md section 2, `FLT`: a nonzero `FLT` is kept by every step but RESET and LOAD_PROGRAM, and a step that
sets it sets the code that `LAST` takes. -/
def Obligations.FirstFaultIsKeptUntilReset : Prop :=
  ∀ s t : State, s.Inv → step s = .next t →
    (∀ c rest, s.cmds = c :: rest → c ≠ .reset → (∀ ws, c ≠ .loadProgram ws) → s.flt ≠ 0 → t.flt = s.flt) ∧
    (s.flt = 0 → t.flt ≠ 0 → t.flt.toNat = t.last.toNat)

/-- 60_exceptions.md section 2, recovery: a repeated FORWARD after a fault takes the same fault and changes nothing
further, whatever the host writes to memory in between; a repeated BACKWARD likewise. -/
def Obligations.RepeatedFaultIsInert : Prop :=
  ∀ s t : State,
    (forward s = .next t → isFaultCode t.last = true →
      ∀ m : Memory, forward { t with mem := m } = .next { t with mem := m }) ∧
    (backward s = .next t → isFaultCode t.last = true →
      ∀ m : Memory, backward { t with mem := m } = .next { t with mem := m })

/-- 70_reset_and_hazards.md section 3, fixed step count: a host that issues n FORWARDs where one faults gets n
responses with that fault, and the engine is left as the first left it. -/
def Obligations.FixedCountAfterFaultRepeatsResponse : Prop :=
  ∀ (n : Nat) (s t : State) (rest : List Command),
    s.cmds = List.replicate (n + 1) .forward ++ rest → forward s = .next t → isFaultCode t.last = true →
    stepTimes (n + 1) s =
      .next { t with
        cmds := rest,
        responses := List.replicate (n + 1) { result := t.last, data := 0 } ++ s.responses }

/-- 41_backward.md section 3, when backward may be used: after a faulting Forward, Backward undoes the last instruction
that completed, as it would have before the fault. -/
def Obligations.BackwardAfterFaultUndoesLastCompleted : Prop :=
  ∀ s t u : State, forward s = .next t → isFaultCode t.last = true → backward s = .next u → 0 < s.step →
    ∃ v, backward t = .next v ∧ v.addr = u.addr ∧ v.store = u.store ∧ v.step = u.step ∧ v.mem = u.mem ∧
      v.last = u.last

/-- 45_host_interface.md section 3, the end of a run: L Forwards from slot 0 that all answer OK, with no fault before,
end a complete run, and RUN agrees with them. -/
def Obligations.FaultFreeRunIsComplete : Prop :=
  ∀ s t : State, s.Inv → s.step = 0 → s.flt = 0 → forwardsOk s.progLen s = some t →
    t.complete = true ∧ t.faulted = false ∧ (0 < s.progLen → run s = .next t)

/-! ### Host commands -/

/-- R126: MEM_WRITE writes bit 0 of `v` at `a` and nothing else, or answers BAD_ARGUMENT. -/
def Obligations.MemWriteWritesOneBit : Prop :=
  ∀ (s : State) (a v : Word) (rest : List Command), s.cmds = .memWrite a v :: rest → s.mem.wf →
    (a.toNat < s.cfg.memSize →
      ∃ m : Memory,
        step s = .next { s with
          mem := m, cmds := rest, responses := { result := 0, data := 0 } :: s.responses } ∧
        ∀ b, m.read b = if b = a.toNat then BitVec.ofBool (v.getLsbD 0) else s.mem.read b) ∧
    (s.cfg.memSize ≤ a.toNat →
      step s = .next { s with cmds := rest, responses := { result := 5, data := 0 } :: s.responses })

/-- R127: MEM_READ answers the bit at `a`, zero-extended, and changes no state, or answers BAD_ARGUMENT. -/
def Obligations.MemReadAnswersBit : Prop :=
  ∀ (s : State) (a : Word) (rest : List Command), s.cmds = .memRead a :: rest →
    (a.toNat < s.cfg.memSize →
      ∃ d : Word, d.toNat = (s.mem.read a.toNat).toNat ∧
        step s = .next { s with cmds := rest, responses := { result := 0, data := d } :: s.responses }) ∧
    (s.cfg.memSize ≤ a.toNat →
      step s = .next { s with cmds := rest, responses := { result := 5, data := 0 } :: s.responses })

/-- R128 with 10_state.md R33: READ_REG answers the register map, STATUS by the weights of its fields, and changes no
state; a reserved index answers BAD_ARGUMENT. -/
def Obligations.ReadRegAnswersRegisterMap : Prop :=
  ∀ (s : State) (i : Word) (rest : List Command), s.Inv → s.cmds = .readReg i :: rest →
    (i.toNat < 5 →
      ∃ d : Word,
        step s = .next { s with cmds := rest, responses := { result := 0, data := d } :: s.responses } ∧
        (i.toNat = 0 → d.toNat = (if s.step = s.progLen then 1 else 0) + 2 * s.store.toNat + 4 * s.flt.toNat +
          16 * s.last.toNat + (if s.cfg.undoMode = .trace then 128 else 0)) ∧
        (i.toNat = 1 → d.toNat = s.addr) ∧ (i.toNat = 2 → d.toNat = s.step) ∧
        (i.toNat = 3 → d.toNat = s.progLen) ∧ (i.toNat = 4 → d.toNat = s.cfg.memSize - 1)) ∧
    (5 ≤ i.toNat →
      step s = .next { s with cmds := rest, responses := { result := 5, data := 0 } :: s.responses })

/-- R130: a command whose argument is out of range changes no state and returns BAD_ARGUMENT. -/
def Obligations.BadArgumentChangesNothing : Prop :=
  ∀ (s : State) (c : Command) (rest : List Command), s.cmds = c :: rest →
    ((∃ a v, c = .memWrite a v ∧ s.cfg.memSize ≤ a.toNat) ∨ (∃ a, c = .memRead a ∧ s.cfg.memSize ≤ a.toNat) ∨
      (∃ i, c = .readReg i ∧ 5 ≤ i.toNat) ∨ (∃ ws, c = .loadProgram ws ∧ s.cfg.progCap < ws.length)) →
    step s = .next { s with cmds := rest, responses := { result := 5, data := 0 } :: s.responses }

/-- R131: every command returns exactly one response; its result is a named code, and its data is 0 unless it is a
MEM_READ or READ_REG that returns OK. -/
def Obligations.EveryCommandReturnsOneResponse : Prop :=
  ∀ (s : State) (c : Command) (rest : List Command), s.Inv → s.cmds = c :: rest →
    ∃ t r, step s = .next t ∧ t.cmds = rest ∧ t.responses = r :: s.responses ∧ r.result.toNat ≤ 5 ∧
      (r.data ≠ 0 → r.result = 0 ∧ ((∃ a, c = .memRead a) ∨ ∃ i, c = .readReg i))

/-- 45_host_interface.md section 1, agents and ordering: the commands the host issues later do not change what the
oldest one does. -/
def Obligations.LaterCommandsDoNotAffectStep : Prop :=
  ∀ (s t : State) (cs : List Command), s.cmds ≠ [] → step s = .next t →
    step (s.issue cs) = .next (t.issue cs)

/-- 20_memory.md section 5 and 10_state.md section 1: the parameters never change, and the program store changes only
by a LOAD_PROGRAM that fits, which resets in the same step. -/
def Obligations.ProgramStoreChangesOnlyByLoadProgram : Prop :=
  ∀ s t : State, step s = .next t → t.cfg = s.cfg ∧
    (t.prog ≠ s.prog →
      ∃ ws rest, s.cmds = .loadProgram ws :: rest ∧ ws.length ≤ s.cfg.progCap ∧ t.prog = ws ∧ (∀ a, t.mem.read a = 0) ∧
        t.addr = 0 ∧ t.store = 0 ∧ t.step = 0 ∧ t.flt = 0 ∧ t.last = 0 ∧ ∀ k, t.undo.read k = 0)

/-- The MODEL's own (log entry 6): after `withFetchWord` the very next step runs exactly the instruction the word
decodes to, and answers the FORWARD it stands for. -/
def Obligations.FetchWordRunsNext : Prop :=
  ∀ (s : State) (w : Word),
    step (s.withFetchWord 32 w.toNat) =
      match exec (decode w) (s.withFetchWord 32 w.toNat) with
      | .next t => .next { t with cmds := s.cmds, responses := { result := t.last, data := 0 } :: t.responses }
      | .fault f => .fault f
      | .refused r => .refused r

/-- 45_host_interface.md section 3, host usage: the RESET and MEM_WRITEs that open a trial leave the input bits at the
addresses from 0 and every other bit 0, with every register 0. -/
def Obligations.TrialOpeningWritesInput : Prop :=
  ∀ (s : State) (input : List Bit) (rest : List Command), input.length ≤ s.cfg.memSize →
    s.cmds = .reset :: inputCommands 0 input ++ rest →
    ∃ t, stepTimes (1 + input.length) s = .next t ∧ t.cmds = rest ∧ t.step = 0 ∧ t.addr = 0 ∧
      t.store = 0 ∧ t.flt = 0 ∧ t.last = 0 ∧ t.prog = s.prog ∧ ∀ a, t.mem.read a = (input[a]?).getD 0

/-! ### Forward and backward together -/

/-- R106: a Forward that answers OK and then a Backward restore `step`, `addr`, all of memory and the phase, and
restore `store` but for a `LOAD` under RESAMPLE, where it ends as the bit the `LOAD` read; a Forward that answers
anything else changed only `LAST` and `FLT`. -/
def Obligations.ForwardThenBackwardRestores : Prop :=
  ∀ s t : State, s.Inv → forward s = .next t →
    (t.last = 0 →
      ∃ u, backward t = .next u ∧ u.step = s.step ∧ u.addr = s.addr ∧ u.mem = s.mem ∧ u.phase = s.phase ∧
        u.last = 0 ∧ u.flt = s.flt ∧
        u.store =
          if (s.prog[s.step]?).map decode = some .load ∧ s.cfg.undoMode = .resample then s.mem.read s.addr
          else s.store) ∧
    (t.last ≠ 0 → t = { s with flt := t.flt, last := t.last })

/-- 41_backward.md section 3, exactness in TRACE mode: after n Forwards that all answer OK, n Backwards all answer OK
and lead back to the values of `addr`, `store`, `step` and every bit of memory that the Forwards started from. -/
def Obligations.TraceBackwardRetracesForward : Prop :=
  ∀ (n : Nat) (s t : State), s.Inv → s.cfg.undoMode = .trace → forwardsOk n s = some t →
    ∃ u, backwardsOk n t = some u ∧ u.addr = s.addr ∧ u.store = s.store ∧ u.step = s.step ∧ u.mem = s.mem

/-- The same section: while the undo trace remembers the history (the invariant below), no Backward faults in TRACE
mode. -/
def Obligations.TraceBackwardNeverFaults : Prop :=
  ∀ s : State, s.Inv → s.cfg.undoMode = .trace → s.Retraceable → 0 < s.step →
    ∃ t, backward s = .next t ∧ t.last = 0 ∧ t.step = s.step - 1 ∧ t.flt = s.flt

/-- 41_backward.md section 3, divergence in RESAMPLE mode: the example of MEM_SIZE 1, MEM[0] = 1 and the program
`CDEC 1; LOAD`, two Forwards and two Backwards, in both modes. -/
def Obligations.ResampleBackwardDiverges : Prop :=
  ∀ c : Config, c.memSize = 1 → 2 ≤ c.progCap →
    ∃ t u v,
      forwardsOk 2 { State.powerOn c with mem := [(0, 1)], prog := [0xC0000001#32, 0x80000000#32] } = some t ∧
      backwardsOk 1 t = some u ∧ backward u = .next v ∧
      (c.undoMode = .resample → u.store = 1 ∧ v.last = 2 ∧ v.flt = 2 ∧ v.step = 1 ∧ v.addr = 0) ∧
      (c.undoMode = .trace → u.store = 0 ∧ v.last = 0 ∧ v.flt = 0 ∧ v.step = 0 ∧ v.addr = 0)

/-- 00_scope.md section 2, `UNDO_MODE`: forward execution does not depend on the mode, but for the undo trace itself. -/
def Obligations.ForwardDoesNotDependOnUndoMode : Prop :=
  ∀ s t : State, s.Inv → forward s = .next t → forward s.rebuiltResample = .next t.rebuiltResample

/-! ### Invariants of every step -/

/-- 10_state.md section 3, invariants: they hold of every power-on state, and so of the machine's reset state. -/
def Obligations.PowerOnSatisfiesInvariants : Prop :=
  (∀ c : Config, (State.powerOn c).Inv ∧ (State.powerOn c).Retraceable) ∧ State.reset.Inv

/-- The same invariants are kept by every step, from every state that satisfies them. -/
def Obligations.EveryStepKeepsInvariants : Prop :=
  ∀ s t : State, s.Inv → step s = .next t → t.Inv

/-- 41_backward.md section 3, history: every step keeps the undo trace true to the history, from every state that
satisfies the invariants. -/
def Obligations.EveryStepKeepsTraceHistory : Prop :=
  ∀ s t : State, s.Inv → s.Retraceable → step s = .next t → t.Retraceable

/-- 70_reset_and_hazards.md section 4 and 30_encoding.md section 1: from every state that satisfies the invariants,
every step answers a next state: no command is refused, none stops the machine and none runs forever. -/
def Obligations.EveryStepAnswersNextState : Prop :=
  ∀ s : State, s.Inv → ∃ t, step s = .next t
end

