-- ==== Sys2Proof/Laws/Memory.lean ====
section
/-! SUPPORT. The laws of bit arrays: reading after writing, the canonical form, and that canonical arrays with equal
bits are equal data. -/

namespace Sys2Proof.Machine

@[simp] theorem Memory.read_nil (a : Nat) : Memory.read [] a = 0 := rfl

theorem Memory.read_cons (b : Nat) (v : Bit) (m : Memory) (a : Nat) :
    Memory.read ((b, v) :: m) a = if a = b then v else m.read a := rfl

theorem Memory.wf_nil : Memory.wf [] := ⟨List.Pairwise.nil, fun _ h => absurd h List.not_mem_nil⟩

theorem Memory.wf_cons_iff (b : Nat) (x : Bit) (m : Memory) :
    Memory.wf ((b, x) :: m) ↔ (∀ c ∈ m, b < c.1) ∧ x ≠ 0 ∧ m.wf := by
  simp only [Memory.wf, List.pairwise_cons, List.mem_cons, forall_eq_or_imp, unlistedBit]
  tauto

/-- Below every listed address an array reads the unlisted bit. -/
theorem Memory.read_below (m : Memory) (a : Nat) (h : ∀ c ∈ m, a < c.1) : m.read a = 0 := by
  induction m with
  | nil => rfl
  | cons c m ih =>
    obtain ⟨b, x⟩ := c
    have hb : a < b := h (b, x) (by simp)
    rw [Memory.read_cons, if_neg (by omega)]
    exact ih fun c hc => h c (by simp [hc])

theorem Memory.mem_consCell {a : Nat} {v : Bit} {m : Memory} {c : Nat × Bit}
    (h : c ∈ Memory.consCell a v m) : c = (a, v) ∨ c ∈ m := by
  unfold Memory.consCell at h
  split at h
  · exact .inr h
  · simpa using h

theorem Memory.consCell_wf {a : Nat} {v : Bit} {m : Memory} (hm : m.wf) (ha : ∀ c ∈ m, a < c.1) :
    (Memory.consCell a v m).wf := by
  unfold Memory.consCell
  split
  · exact hm
  · rename_i hv
    exact (Memory.wf_cons_iff a v m).2 ⟨ha, hv, hm⟩

theorem Memory.read_consCell {a : Nat} {v : Bit} {m : Memory} (ha : ∀ c ∈ m, a < c.1) (b : Nat) :
    (Memory.consCell a v m).read b = if b = a then v else m.read b := by
  unfold Memory.consCell
  split
  · rename_i hv
    split
    · rename_i hb
      rw [hb, Memory.read_below m a ha, hv]
      rfl
    · rfl
  · rfl

/-- A written array lists the written cell and cells it listed before, and no other. -/
theorem Memory.mem_write {m : Memory} {a : Nat} {v : Bit} {c : Nat × Bit}
    (h : c ∈ m.write a v) : c = (a, v) ∨ c ∈ m := by
  induction m with
  | nil => exact Memory.mem_consCell h
  | cons d m ih =>
    obtain ⟨b, x⟩ := d
    simp only [Memory.write] at h
    split at h
    · exact Memory.mem_consCell h
    · split at h
      · rcases Memory.mem_consCell h with h | h
        · exact .inl h
        · exact .inr (by simp [h])
      · rcases List.mem_cons.1 h with h | h
        · exact .inr (by simp [h])
        · rcases ih h with h | h
          · exact .inl h
          · exact .inr (by simp [h])

/-- Writing keeps the canonical form. -/
theorem Memory.write_wf {m : Memory} (hm : m.wf) (a : Nat) (v : Bit) : (m.write a v).wf := by
  induction m with
  | nil => exact Memory.consCell_wf hm (by simp)
  | cons d m ih =>
    obtain ⟨b, x⟩ := d
    obtain ⟨hb, hx, hm'⟩ := (Memory.wf_cons_iff b x m).1 hm
    simp only [Memory.write]
    split
    · rename_i hab
      refine Memory.consCell_wf hm fun c hc => ?_
      rcases List.mem_cons.1 hc with rfl | hc
      · exact hab
      · exact lt_trans hab (hb c hc)
    · split
      · rename_i hab
        subst hab
        exact Memory.consCell_wf hm' hb
      · rename_i h1 h2
        refine (Memory.wf_cons_iff b x _).2 ⟨fun c hc => ?_, hx, ih hm'⟩
        rcases Memory.mem_write hc with rfl | hc
        · exact show b < a by omega
        · exact hb c hc

/-- Writing keeps every listed address below a bound that the written address satisfies. -/
theorem Memory.write_within {m : Memory} {size a : Nat} (hm : m.within size) (ha : a < size) (v : Bit) :
    (m.write a v).within size := by
  intro c hc
  rcases Memory.mem_write hc with rfl | hc
  · exact ha
  · exact hm c hc

/-- A read after a write: the written address gives the written bit, every other address what it gave before. -/
theorem Memory.read_write {m : Memory} (hm : m.wf) (a : Nat) (v : Bit) (b : Nat) :
    (m.write a v).read b = if b = a then v else m.read b := by
  induction m with
  | nil => exact Memory.read_consCell (by simp) b
  | cons d m ih =>
    obtain ⟨c, x⟩ := d
    obtain ⟨hc, hx, hm'⟩ := (Memory.wf_cons_iff c x m).1 hm
    simp only [Memory.write]
    split
    · rename_i hac
      refine Memory.read_consCell (fun d hd => ?_) b
      rcases List.mem_cons.1 hd with rfl | hd
      · exact hac
      · exact lt_trans hac (hc d hd)
    · split
      · rename_i hac
        subst hac
        rw [Memory.read_consCell hc, Memory.read_cons]
        split <;> rfl
      · rename_i h1 h2
        rw [Memory.read_cons, Memory.read_cons, ih hm']
        by_cases hb : b = c
        · rw [if_pos hb, if_pos hb, if_neg (by omega)]
        · rw [if_neg hb, if_neg hb]

/-- A read that a write changes is a read of the written address. -/
theorem Memory.eq_of_read_write_ne {m : Memory} (hm : m.wf) {a : Nat} {v : Bit} {b : Nat}
    (h : (m.write a v).read b ≠ m.read b) : b = a := by
  by_contra hb
  rw [Memory.read_write hm, if_neg hb] at h
  exact h rfl

/-- Canonical arrays that read the same everywhere are the same data. -/
theorem Memory.eq_of_read_eq {m n : Memory} (hm : m.wf) (hn : n.wf) (h : ∀ a, m.read a = n.read a) :
    m = n := by
  induction m generalizing n with
  | nil =>
    cases n with
    | nil => rfl
    | cons d n =>
      obtain ⟨b, x⟩ := d
      have := h b
      simp only [Memory.read_nil, Memory.read_cons, if_pos] at this
      exact absurd this.symm ((Memory.wf_cons_iff b x n).1 hn).2.1
  | cons c m ih =>
    obtain ⟨a, v⟩ := c
    obtain ⟨ha, hv, hm'⟩ := (Memory.wf_cons_iff a v m).1 hm
    cases n with
    | nil =>
      have := h a
      simp only [Memory.read_nil, Memory.read_cons, if_pos] at this
      exact absurd this hv
    | cons d n =>
      obtain ⟨b, x⟩ := d
      obtain ⟨hb, hx, hn'⟩ := (Memory.wf_cons_iff b x n).1 hn
      have hab : a = b := by
        rcases lt_trichotomy a b with hlt | heq | hlt
        · have h1 := h a
          rw [Memory.read_cons, if_pos rfl, Memory.read_below _ a] at h1
          · exact absurd h1 hv
          · intro c hc
            rcases List.mem_cons.1 hc with rfl | hc
            · exact hlt
            · exact lt_trans hlt (hb c hc)
        · exact heq
        · have h1 := h b
          rw [Memory.read_cons (b := b), if_pos rfl, Memory.read_below _ b] at h1
          · exact absurd h1.symm hx
          · intro c hc
            rcases List.mem_cons.1 hc with rfl | hc
            · exact hlt
            · exact lt_trans hlt (ha c hc)
      subst hab
      have hvx : v = x := by simpa [Memory.read_cons] using h a
      subst hvx
      have hmn : m = n := by
        refine ih hm' hn' fun k => ?_
        by_cases hk : k = a
        · subst hk
          rw [Memory.read_below m k ha, Memory.read_below n k hb]
        · simpa [Memory.read_cons, hk] using h k
      rw [hmn]

end Sys2Proof.Machine
end

