-- ==== Sys2Proof/Laws/State.lean ====
section
/-! SUPPORT. What each field reads after each update of the state, by definition: one lemma per field per update. -/

namespace Sys2Proof.Machine

section
variable (s : State)

/-! ### `withAddr`: `addr <- a` -/

@[simp] theorem State.withAddr_cfg (a : Nat) : (s.withAddr a).cfg = s.cfg := rfl
@[simp] theorem State.withAddr_mem (a : Nat) : (s.withAddr a).mem = s.mem := rfl
@[simp] theorem State.withAddr_addr (a : Nat) : (s.withAddr a).addr = a := rfl
@[simp] theorem State.withAddr_store (a : Nat) : (s.withAddr a).store = s.store := rfl
@[simp] theorem State.withAddr_step (a : Nat) : (s.withAddr a).step = s.step := rfl
@[simp] theorem State.withAddr_flt (a : Nat) : (s.withAddr a).flt = s.flt := rfl
@[simp] theorem State.withAddr_last (a : Nat) : (s.withAddr a).last = s.last := rfl
@[simp] theorem State.withAddr_undo (a : Nat) : (s.withAddr a).undo = s.undo := rfl
@[simp] theorem State.withAddr_prog (a : Nat) : (s.withAddr a).prog = s.prog := rfl
@[simp] theorem State.withAddr_cmds (a : Nat) : (s.withAddr a).cmds = s.cmds := rfl
@[simp] theorem State.withAddr_responses (a : Nat) : (s.withAddr a).responses = s.responses := rfl
@[simp] theorem State.withAddr_progLen (a : Nat) : (s.withAddr a).progLen = s.progLen := rfl

/-! ### `withStore`: `store <- b` -/

@[simp] theorem State.withStore_cfg (b : Bit) : (s.withStore b).cfg = s.cfg := rfl
@[simp] theorem State.withStore_mem (b : Bit) : (s.withStore b).mem = s.mem := rfl
@[simp] theorem State.withStore_addr (b : Bit) : (s.withStore b).addr = s.addr := rfl
@[simp] theorem State.withStore_store (b : Bit) : (s.withStore b).store = b := rfl
@[simp] theorem State.withStore_step (b : Bit) : (s.withStore b).step = s.step := rfl
@[simp] theorem State.withStore_flt (b : Bit) : (s.withStore b).flt = s.flt := rfl
@[simp] theorem State.withStore_last (b : Bit) : (s.withStore b).last = s.last := rfl
@[simp] theorem State.withStore_undo (b : Bit) : (s.withStore b).undo = s.undo := rfl
@[simp] theorem State.withStore_prog (b : Bit) : (s.withStore b).prog = s.prog := rfl
@[simp] theorem State.withStore_cmds (b : Bit) : (s.withStore b).cmds = s.cmds := rfl
@[simp] theorem State.withStore_responses (b : Bit) : (s.withStore b).responses = s.responses := rfl
@[simp] theorem State.withStore_progLen (b : Bit) : (s.withStore b).progLen = s.progLen := rfl

/-! ### `writeMem`: `MemWrite(a, 1, v)` -/

@[simp] theorem State.writeMem_cfg (a : Nat) (v : Bit) : (s.writeMem a v).cfg = s.cfg := rfl
@[simp] theorem State.writeMem_mem (a : Nat) (v : Bit) : (s.writeMem a v).mem = s.mem.write a v := rfl
@[simp] theorem State.writeMem_addr (a : Nat) (v : Bit) : (s.writeMem a v).addr = s.addr := rfl
@[simp] theorem State.writeMem_store (a : Nat) (v : Bit) : (s.writeMem a v).store = s.store := rfl
@[simp] theorem State.writeMem_step (a : Nat) (v : Bit) : (s.writeMem a v).step = s.step := rfl
@[simp] theorem State.writeMem_flt (a : Nat) (v : Bit) : (s.writeMem a v).flt = s.flt := rfl
@[simp] theorem State.writeMem_last (a : Nat) (v : Bit) : (s.writeMem a v).last = s.last := rfl
@[simp] theorem State.writeMem_undo (a : Nat) (v : Bit) : (s.writeMem a v).undo = s.undo := rfl
@[simp] theorem State.writeMem_prog (a : Nat) (v : Bit) : (s.writeMem a v).prog = s.prog := rfl
@[simp] theorem State.writeMem_cmds (a : Nat) (v : Bit) : (s.writeMem a v).cmds = s.cmds := rfl
@[simp] theorem State.writeMem_responses (a : Nat) (v : Bit) : (s.writeMem a v).responses = s.responses := rfl
@[simp] theorem State.writeMem_progLen (a : Nat) (v : Bit) : (s.writeMem a v).progLen = s.progLen := rfl

/-! ### `writeUndo`: `UNDO[k] <- b` -/

@[simp] theorem State.writeUndo_cfg (k : Nat) (b : Bit) : (s.writeUndo k b).cfg = s.cfg := rfl
@[simp] theorem State.writeUndo_mem (k : Nat) (b : Bit) : (s.writeUndo k b).mem = s.mem := rfl
@[simp] theorem State.writeUndo_addr (k : Nat) (b : Bit) : (s.writeUndo k b).addr = s.addr := rfl
@[simp] theorem State.writeUndo_store (k : Nat) (b : Bit) : (s.writeUndo k b).store = s.store := rfl
@[simp] theorem State.writeUndo_step (k : Nat) (b : Bit) : (s.writeUndo k b).step = s.step := rfl
@[simp] theorem State.writeUndo_flt (k : Nat) (b : Bit) : (s.writeUndo k b).flt = s.flt := rfl
@[simp] theorem State.writeUndo_last (k : Nat) (b : Bit) : (s.writeUndo k b).last = s.last := rfl
@[simp] theorem State.writeUndo_undo (k : Nat) (b : Bit) : (s.writeUndo k b).undo = s.undo.write k b := rfl
@[simp] theorem State.writeUndo_prog (k : Nat) (b : Bit) : (s.writeUndo k b).prog = s.prog := rfl
@[simp] theorem State.writeUndo_cmds (k : Nat) (b : Bit) : (s.writeUndo k b).cmds = s.cmds := rfl
@[simp] theorem State.writeUndo_responses (k : Nat) (b : Bit) : (s.writeUndo k b).responses = s.responses := rfl
@[simp] theorem State.writeUndo_progLen (k : Nat) (b : Bit) : (s.writeUndo k b).progLen = s.progLen := rfl

/-! ### `withLast`: `LAST <- r` -/

@[simp] theorem State.withLast_cfg (r : Result) : (s.withLast r).cfg = s.cfg := rfl
@[simp] theorem State.withLast_mem (r : Result) : (s.withLast r).mem = s.mem := rfl
@[simp] theorem State.withLast_addr (r : Result) : (s.withLast r).addr = s.addr := rfl
@[simp] theorem State.withLast_store (r : Result) : (s.withLast r).store = s.store := rfl
@[simp] theorem State.withLast_step (r : Result) : (s.withLast r).step = s.step := rfl
@[simp] theorem State.withLast_flt (r : Result) : (s.withLast r).flt = s.flt := rfl
@[simp] theorem State.withLast_last (r : Result) : (s.withLast r).last = r.code := rfl
@[simp] theorem State.withLast_undo (r : Result) : (s.withLast r).undo = s.undo := rfl
@[simp] theorem State.withLast_prog (r : Result) : (s.withLast r).prog = s.prog := rfl
@[simp] theorem State.withLast_cmds (r : Result) : (s.withLast r).cmds = s.cmds := rfl
@[simp] theorem State.withLast_responses (r : Result) : (s.withLast r).responses = s.responses := rfl
@[simp] theorem State.withLast_progLen (r : Result) : (s.withLast r).progLen = s.progLen := rfl

/-! ### `completeAt`: the end of a completed Forward or Backward -/

@[simp] theorem State.completeAt_cfg (k : Nat) : (s.completeAt k).cfg = s.cfg := rfl
@[simp] theorem State.completeAt_mem (k : Nat) : (s.completeAt k).mem = s.mem := rfl
@[simp] theorem State.completeAt_addr (k : Nat) : (s.completeAt k).addr = s.addr := rfl
@[simp] theorem State.completeAt_store (k : Nat) : (s.completeAt k).store = s.store := rfl
@[simp] theorem State.completeAt_step (k : Nat) : (s.completeAt k).step = k := rfl
@[simp] theorem State.completeAt_flt (k : Nat) : (s.completeAt k).flt = s.flt := rfl
@[simp] theorem State.completeAt_last (k : Nat) : (s.completeAt k).last = 0 := rfl
@[simp] theorem State.completeAt_undo (k : Nat) : (s.completeAt k).undo = s.undo := rfl
@[simp] theorem State.completeAt_prog (k : Nat) : (s.completeAt k).prog = s.prog := rfl
@[simp] theorem State.completeAt_cmds (k : Nat) : (s.completeAt k).cmds = s.cmds := rfl
@[simp] theorem State.completeAt_responses (k : Nat) : (s.completeAt k).responses = s.responses := rfl
@[simp] theorem State.completeAt_progLen (k : Nat) : (s.completeAt k).progLen = s.progLen := rfl

/-! ### `takeAddressFault`: taking an addressing fault (R142) -/

@[simp] theorem State.takeAddressFault_cfg (f : AddressFault) : (s.takeAddressFault f).cfg = s.cfg := rfl
@[simp] theorem State.takeAddressFault_mem (f : AddressFault) : (s.takeAddressFault f).mem = s.mem := rfl
@[simp] theorem State.takeAddressFault_addr (f : AddressFault) : (s.takeAddressFault f).addr = s.addr := rfl
@[simp] theorem State.takeAddressFault_store (f : AddressFault) : (s.takeAddressFault f).store = s.store := rfl
@[simp] theorem State.takeAddressFault_step (f : AddressFault) : (s.takeAddressFault f).step = s.step := rfl
@[simp] theorem State.takeAddressFault_flt (f : AddressFault) : (s.takeAddressFault f).flt = if s.flt = 0 then f.code else s.flt := rfl
@[simp] theorem State.takeAddressFault_last (f : AddressFault) : (s.takeAddressFault f).last = f.result.code := rfl
@[simp] theorem State.takeAddressFault_undo (f : AddressFault) : (s.takeAddressFault f).undo = s.undo := rfl
@[simp] theorem State.takeAddressFault_prog (f : AddressFault) : (s.takeAddressFault f).prog = s.prog := rfl
@[simp] theorem State.takeAddressFault_cmds (f : AddressFault) : (s.takeAddressFault f).cmds = s.cmds := rfl
@[simp] theorem State.takeAddressFault_responses (f : AddressFault) : (s.takeAddressFault f).responses = s.responses := rfl
@[simp] theorem State.takeAddressFault_progLen (f : AddressFault) : (s.takeAddressFault f).progLen = s.progLen := rfl

/-! ### `resetEngine`: `Reset()` (R160) -/

@[simp] theorem State.resetEngine_cfg : s.resetEngine.cfg = s.cfg := rfl
@[simp] theorem State.resetEngine_mem : s.resetEngine.mem = [] := rfl
@[simp] theorem State.resetEngine_addr : s.resetEngine.addr = 0 := rfl
@[simp] theorem State.resetEngine_store : s.resetEngine.store = 0 := rfl
@[simp] theorem State.resetEngine_step : s.resetEngine.step = 0 := rfl
@[simp] theorem State.resetEngine_flt : s.resetEngine.flt = 0 := rfl
@[simp] theorem State.resetEngine_last : s.resetEngine.last = 0 := rfl
@[simp] theorem State.resetEngine_undo : s.resetEngine.undo = [] := rfl
@[simp] theorem State.resetEngine_prog : s.resetEngine.prog = s.prog := rfl
@[simp] theorem State.resetEngine_cmds : s.resetEngine.cmds = s.cmds := rfl
@[simp] theorem State.resetEngine_responses : s.resetEngine.responses = s.responses := rfl
@[simp] theorem State.resetEngine_progLen : s.resetEngine.progLen = s.progLen := rfl

/-! ### `withProgram`: `PROG` and `L` replaced (R129) -/

@[simp] theorem State.withProgram_cfg (ws : List Word) : (s.withProgram ws).cfg = s.cfg := rfl
@[simp] theorem State.withProgram_mem (ws : List Word) : (s.withProgram ws).mem = s.mem := rfl
@[simp] theorem State.withProgram_addr (ws : List Word) : (s.withProgram ws).addr = s.addr := rfl
@[simp] theorem State.withProgram_store (ws : List Word) : (s.withProgram ws).store = s.store := rfl
@[simp] theorem State.withProgram_step (ws : List Word) : (s.withProgram ws).step = s.step := rfl
@[simp] theorem State.withProgram_flt (ws : List Word) : (s.withProgram ws).flt = s.flt := rfl
@[simp] theorem State.withProgram_last (ws : List Word) : (s.withProgram ws).last = s.last := rfl
@[simp] theorem State.withProgram_undo (ws : List Word) : (s.withProgram ws).undo = s.undo := rfl
@[simp] theorem State.withProgram_prog (ws : List Word) : (s.withProgram ws).prog = ws := rfl
@[simp] theorem State.withProgram_cmds (ws : List Word) : (s.withProgram ws).cmds = s.cmds := rfl
@[simp] theorem State.withProgram_responses (ws : List Word) : (s.withProgram ws).responses = s.responses := rfl
@[simp] theorem State.withProgram_progLen (ws : List Word) : (s.withProgram ws).progLen = ws.length := rfl

/-! ### `answer`: the answer to a command (R131) -/

@[simp] theorem State.answer_cfg (rest : List Command) (r : Response) : (s.answer rest r).cfg = s.cfg := rfl
@[simp] theorem State.answer_mem (rest : List Command) (r : Response) : (s.answer rest r).mem = s.mem := rfl
@[simp] theorem State.answer_addr (rest : List Command) (r : Response) : (s.answer rest r).addr = s.addr := rfl
@[simp] theorem State.answer_store (rest : List Command) (r : Response) : (s.answer rest r).store = s.store := rfl
@[simp] theorem State.answer_step (rest : List Command) (r : Response) : (s.answer rest r).step = s.step := rfl
@[simp] theorem State.answer_flt (rest : List Command) (r : Response) : (s.answer rest r).flt = s.flt := rfl
@[simp] theorem State.answer_last (rest : List Command) (r : Response) : (s.answer rest r).last = s.last := rfl
@[simp] theorem State.answer_undo (rest : List Command) (r : Response) : (s.answer rest r).undo = s.undo := rfl
@[simp] theorem State.answer_prog (rest : List Command) (r : Response) : (s.answer rest r).prog = s.prog := rfl
@[simp] theorem State.answer_cmds (rest : List Command) (r : Response) : (s.answer rest r).cmds = rest := rfl
@[simp] theorem State.answer_responses (rest : List Command) (r : Response) : (s.answer rest r).responses = r :: s.responses := rfl
@[simp] theorem State.answer_progLen (rest : List Command) (r : Response) : (s.answer rest r).progLen = s.progLen := rfl

/-! ### `issue`: the host issues commands (R120) -/

@[simp] theorem State.issue_cfg (cs : List Command) : (s.issue cs).cfg = s.cfg := rfl
@[simp] theorem State.issue_mem (cs : List Command) : (s.issue cs).mem = s.mem := rfl
@[simp] theorem State.issue_addr (cs : List Command) : (s.issue cs).addr = s.addr := rfl
@[simp] theorem State.issue_store (cs : List Command) : (s.issue cs).store = s.store := rfl
@[simp] theorem State.issue_step (cs : List Command) : (s.issue cs).step = s.step := rfl
@[simp] theorem State.issue_flt (cs : List Command) : (s.issue cs).flt = s.flt := rfl
@[simp] theorem State.issue_last (cs : List Command) : (s.issue cs).last = s.last := rfl
@[simp] theorem State.issue_undo (cs : List Command) : (s.issue cs).undo = s.undo := rfl
@[simp] theorem State.issue_prog (cs : List Command) : (s.issue cs).prog = s.prog := rfl
@[simp] theorem State.issue_cmds (cs : List Command) : (s.issue cs).cmds = s.cmds ++ cs := rfl
@[simp] theorem State.issue_responses (cs : List Command) : (s.issue cs).responses = s.responses := rfl
@[simp] theorem State.issue_progLen (cs : List Command) : (s.issue cs).progLen = s.progLen := rfl

end

/-! ### The power-on state -/

@[simp] theorem State.powerOn_cfg (c : Config) : (State.powerOn c).cfg = c := rfl
@[simp] theorem State.powerOn_mem (c : Config) : (State.powerOn c).mem = [] := rfl
@[simp] theorem State.powerOn_addr (c : Config) : (State.powerOn c).addr = 0 := rfl
@[simp] theorem State.powerOn_store (c : Config) : (State.powerOn c).store = 0 := rfl
@[simp] theorem State.powerOn_step (c : Config) : (State.powerOn c).step = 0 := rfl
@[simp] theorem State.powerOn_flt (c : Config) : (State.powerOn c).flt = 0 := rfl
@[simp] theorem State.powerOn_last (c : Config) : (State.powerOn c).last = 0 := rfl
@[simp] theorem State.powerOn_undo (c : Config) : (State.powerOn c).undo = [] := rfl
@[simp] theorem State.powerOn_prog (c : Config) : (State.powerOn c).prog = [] := rfl
@[simp] theorem State.powerOn_cmds (c : Config) : (State.powerOn c).cmds = [] := rfl
@[simp] theorem State.powerOn_responses (c : Config) : (State.powerOn c).responses = [] := rfl
@[simp] theorem State.powerOn_progLen (c : Config) : (State.powerOn c).progLen = 0 := rfl

/-! ### Codes -/

@[simp] theorem Result.code_ok : Result.code .ok = 0 := rfl
@[simp] theorem Result.code_negativeAddress : Result.code .negativeAddress = 1 := rfl
@[simp] theorem Result.code_outOfMemory : Result.code .outOfMemory = 2 := rfl
@[simp] theorem Result.code_noopDone : Result.code .noopDone = 3 := rfl
@[simp] theorem Result.code_noopAtStart : Result.code .noopAtStart = 4 := rfl
@[simp] theorem Result.code_badArgument : Result.code .badArgument = 5 := rfl
@[simp] theorem AddressFault.code_negativeAddress : AddressFault.code .negativeAddress = 1 := rfl
@[simp] theorem AddressFault.result_negativeAddress : AddressFault.result .negativeAddress = .negativeAddress := rfl
@[simp] theorem AddressFault.code_outOfMemory : AddressFault.code .outOfMemory = 2 := rfl
@[simp] theorem AddressFault.result_outOfMemory : AddressFault.result .outOfMemory = .outOfMemory := rfl

/-- `done` is the equality of `step` and `L` (10_state.md R25). -/
theorem State.done_iff (s : State) : s.done = true ↔ s.step = s.progLen := by
  simp [State.done]

theorem State.done_eq_false_iff (s : State) : s.done = false ↔ s.step ≠ s.progLen := by
  simp [State.done]

/-- No addressing fault's code in `LAST` is that of another result. -/
theorem AddressFault.result_code_cases (f : AddressFault) : f.result.code = 1 ∨ f.result.code = 2 := by
  cases f <;> simp

@[simp] theorem AddressFault.code_ne_zero (f : AddressFault) : f.code ≠ 0#2 := by
  cases f <;> decide

theorem AddressFault.code_ne_three (f : AddressFault) : f.code ≠ 3 := by
  cases f <;> decide

@[simp] theorem AddressFault.result_code_ne_zero (f : AddressFault) : f.result.code ≠ 0#3 := by
  cases f <;> decide

end Sys2Proof.Machine
end

