-- ==== Sys2Proof/Laws/Ops.lean ====
section
/-! SUPPORT. One lemma per shared operation: everything it can do, with the condition of each case. Later proofs cite
these and do not unfold the operations. -/

namespace Sys2Proof.Machine

/-! ### The commit -/

@[simp] theorem commit_done (k : Nat) (s t : State) : commit k s (.done t) = .next (t.completeAt k) := rfl
@[simp] theorem commit_raised (k : Nat) (s : State) (f : AddressFault) :
    commit k s (.raised f) = .next (s.takeAddressFault f) := rfl
@[simp] theorem commit_stopped (k : Nat) (s : State) (f : Fault) : commit k s (.stopped f) = .fault f := rfl

/-- A commit is never a refusal. -/
theorem commit_ne_refused (k : Nat) (s : State) (b : Block) (r : Refusal) : commit k s b ≠ .refused r := by
  cases b <;> simp

/-- A commit that answers a next state either completed the block or took an addressing fault. -/
theorem commit_next {k : Nat} {s t : State} {b : Block} (h : commit k s b = .next t) :
    (∃ u, b = .done u ∧ t = u.completeAt k) ∨ (∃ f, b = .raised f ∧ t = s.takeAddressFault f) := by
  cases b with
  | done u => exact .inl ⟨u, rfl, by simpa using h.symm⟩
  | raised f => exact .inr ⟨f, rfl, by simpa using h.symm⟩
  | stopped f => simp at h

/-! ### The operand operations -/

theorem moveUp_cases (n : Nat) (s : State) :
    (s.addr + n < s.cfg.memSize ∧ moveUp n s = .done (s.withAddr (s.addr + n))) ∨
    (s.cfg.memSize ≤ s.addr + n ∧ moveUp n s = .raised .outOfMemory) := by
  unfold moveUp
  split
  · exact .inr ⟨‹_›, rfl⟩
  · exact .inl ⟨by omega, rfl⟩

theorem moveDown_cases (n : Nat) (s : State) :
    (n ≤ s.addr ∧ moveDown n s = .done (s.withAddr (s.addr - n))) ∨
    (s.addr < n ∧ moveDown n s = .raised .negativeAddress) := by
  unfold moveDown
  split
  · exact .inr ⟨‹_›, rfl⟩
  · exact .inl ⟨by omega, rfl⟩

theorem gatedByStore_cases (move : State → Block) (s : State) :
    (s.store = 1 ∧ gatedByStore move s = move s) ∨ (s.store ≠ 1 ∧ gatedByStore move s = .done s) := by
  unfold gatedByStore
  split
  · exact .inl ⟨‹_›, rfl⟩
  · exact .inr ⟨‹_›, rfl⟩

theorem flipAddressed_cases (s : State) :
    (s.addr < s.cfg.memSize ∧ flipAddressed s = .done (s.writeMem s.addr (~~~(s.mem.read s.addr)))) ∨
    (s.cfg.memSize ≤ s.addr ∧ flipAddressed s = .stopped (.noSuchAddress s.addr)) := by
  unfold flipAddressed withAddressedBit
  split
  · exact .inl ⟨‹_›, rfl⟩
  · exact .inr ⟨by omega, rfl⟩

theorem sampleAddressed_cases (s : State) :
    (s.addr < s.cfg.memSize ∧ sampleAddressed s = .done (s.withStore (s.mem.read s.addr))) ∨
    (s.cfg.memSize ≤ s.addr ∧ sampleAddressed s = .stopped (.noSuchAddress s.addr)) := by
  unfold sampleAddressed withAddressedBit
  split
  · exact .inl ⟨‹_›, rfl⟩
  · exact .inr ⟨by omega, rfl⟩

theorem traceThenSample_cases (s : State) :
    (s.step < s.cfg.progCap ∧ s.addr < s.cfg.memSize ∧
      traceThenSample s = .done ((s.writeUndo s.step s.store).withStore (s.mem.read s.addr))) ∨
    (s.step < s.cfg.progCap ∧ s.cfg.memSize ≤ s.addr ∧
      traceThenSample s = .stopped (.noSuchAddress s.addr)) ∨
    (s.cfg.progCap ≤ s.step ∧ traceThenSample s = .stopped (.noSuchSlot s.step)) := by
  unfold traceThenSample
  split
  · rename_i hk
    rcases sampleAddressed_cases (s.writeUndo s.step s.store) with ⟨ha, h⟩ | ⟨ha, h⟩
    · exact .inl ⟨hk, ha, h⟩
    · exact .inr (.inl ⟨hk, ha, h⟩)
  · exact .inr (.inr ⟨by omega, rfl⟩)

theorem restoreFromTrace_cases (k : Nat) (s : State) :
    (k < s.cfg.progCap ∧ restoreFromTrace k s = .done (s.withStore (s.undo.read k))) ∨
    (s.cfg.progCap ≤ k ∧ restoreFromTrace k s = .stopped (.noSuchSlot k)) := by
  unfold restoreFromTrace
  split
  · exact .inl ⟨‹_›, rfl⟩
  · exact .inr ⟨by omega, rfl⟩

/-! ### The block of each instruction and of each undo -/

/-- The `LOAD` of an engine of either mode. -/
theorem execLoad_cases (s : State) :
    (s.cfg.undoMode = .resample ∧ execLoad s = commit (s.step + 1) s (sampleAddressed s)) ∨
    (s.cfg.undoMode = .trace ∧ execLoad s = commit (s.step + 1) s (traceThenSample s)) := by
  unfold execLoad
  cases h : s.cfg.undoMode <;> simp

/-- The undo of `LOAD` in an engine of either mode. -/
theorem undoLoad_cases (k : Nat) (s : State) :
    (s.cfg.undoMode = .resample ∧ undoLoad k s = commit k s (sampleAddressed s)) ∨
    (s.cfg.undoMode = .trace ∧ undoLoad k s = commit k s (restoreFromTrace k s)) := by
  unfold undoLoad
  cases h : s.cfg.undoMode <;> simp

end Sys2Proof.Machine
end

