-- ==== Sys2Proof/Laws/Sequencer.lean ====
section
/-! SUPPORT. What a Forward, a Backward, a Run and a step can do, said once. -/

namespace Sys2Proof.Machine

/-! ### Fetch and dispatch -/

/-- A fetch answers exactly below `L`. -/
theorem fetch_lt {s : State} {k : Nat} (h : k < s.progLen) : ∃ w, s.fetch k = some w :=
  ⟨s.prog[k]'h, List.getElem?_eq_getElem h⟩

theorem fetch_eq_none_iff (s : State) (k : Nat) : s.fetch k = none ↔ s.progLen ≤ k := by
  simp [State.fetch, State.progLen]

/-- What the instruction `i` leaves when it completes in `s`: the block's next state, before the commit. -/
inductive Completes (s : State) : Instr → State → Prop where
  | inc (n : Nat) (h : s.addr + n < s.cfg.memSize) : Completes s (.inc n) (s.withAddr (s.addr + n))
  | inv (h : s.addr < s.cfg.memSize) : Completes s .inv (s.writeMem s.addr (~~~(s.mem.read s.addr)))
  | loadResample (hm : s.cfg.undoMode = .resample) (h : s.addr < s.cfg.memSize) :
      Completes s .load (s.withStore (s.mem.read s.addr))
  | loadTrace (hm : s.cfg.undoMode = .trace) (hk : s.step < s.cfg.progCap) (h : s.addr < s.cfg.memSize) :
      Completes s .load ((s.writeUndo s.step s.store).withStore (s.mem.read s.addr))
  | cdec (n : Nat) (hs : s.store = 1) (h : n ≤ s.addr) : Completes s (.cdec n) (s.withAddr (s.addr - n))
  | cdecGated (n : Nat) (hs : s.store ≠ 1) : Completes s (.cdec n) s

/-- When the instruction `i` raises an addressing fault in `s` (60_exceptions.md R141, forward rows). -/
inductive Raises (s : State) : Instr → AddressFault → Prop where
  | inc (n : Nat) (h : s.cfg.memSize ≤ s.addr + n) : Raises s (.inc n) .outOfMemory
  | cdec (n : Nat) (hs : s.store = 1) (h : s.addr < n) : Raises s (.cdec n) .negativeAddress

/-- What the undo of `i` at slot `k` leaves when it completes in `s`, before the commit. -/
inductive UndoCompletes (s : State) (k : Nat) : Instr → State → Prop where
  | inc (n : Nat) (h : n ≤ s.addr) : UndoCompletes s k (.inc n) (s.withAddr (s.addr - n))
  | inv (h : s.addr < s.cfg.memSize) : UndoCompletes s k .inv (s.writeMem s.addr (~~~(s.mem.read s.addr)))
  | loadResample (hm : s.cfg.undoMode = .resample) (h : s.addr < s.cfg.memSize) :
      UndoCompletes s k .load (s.withStore (s.mem.read s.addr))
  | loadTrace (hm : s.cfg.undoMode = .trace) (hk : k < s.cfg.progCap) :
      UndoCompletes s k .load (s.withStore (s.undo.read k))
  | cdec (n : Nat) (hs : s.store = 1) (h : s.addr + n < s.cfg.memSize) :
      UndoCompletes s k (.cdec n) (s.withAddr (s.addr + n))
  | cdecGated (n : Nat) (hs : s.store ≠ 1) : UndoCompletes s k (.cdec n) s

/-- When the undo of `i` raises an addressing fault in `s` (R141, backward rows). -/
inductive UndoRaises (s : State) : Instr → AddressFault → Prop where
  | inc (n : Nat) (h : s.addr < n) : UndoRaises s (.inc n) .negativeAddress
  | cdec (n : Nat) (hs : s.store = 1) (h : s.cfg.memSize ≤ s.addr + n) : UndoRaises s (.cdec n) .outOfMemory

/-- Everything `exec` can do: complete, take an addressing fault, or stop because a bit or a slot does not exist. -/
theorem exec_cases (i : Instr) (s : State) :
    (∃ u, Completes s i u ∧ exec i s = .next (u.completeAt (s.step + 1))) ∨
    (∃ f, Raises s i f ∧ exec i s = .next (s.takeAddressFault f)) ∨
    ((s.cfg.memSize ≤ s.addr ∨ s.cfg.progCap ≤ s.step) ∧ ∃ r, exec i s = .fault r) := by
  cases i with
  | inc n =>
    rcases moveUp_cases n s with ⟨h, e⟩ | ⟨h, e⟩
    · exact .inl ⟨_, .inc n h, by simp [exec, execInc, e]⟩
    · exact .inr (.inl ⟨_, .inc n h, by simp [exec, execInc, e]⟩)
  | inv =>
    rcases flipAddressed_cases s with ⟨h, e⟩ | ⟨h, e⟩
    · exact .inl ⟨_, .inv h, by simp [exec, execInv, e]⟩
    · exact .inr (.inr ⟨.inl h, _, by simp only [exec, execInv, e, commit_stopped]; rfl⟩)
  | load =>
    rcases execLoad_cases s with ⟨hm, e⟩ | ⟨hm, e⟩
    · rcases sampleAddressed_cases s with ⟨h, e'⟩ | ⟨h, e'⟩
      · exact .inl ⟨_, .loadResample hm h, by simp [exec, e, e']⟩
      · exact .inr (.inr ⟨.inl h, _, by simp only [exec, e, e', commit_stopped]; rfl⟩)
    · rcases traceThenSample_cases s with ⟨hk, h, e'⟩ | ⟨hk, h, e'⟩ | ⟨h, e'⟩
      · exact .inl ⟨_, .loadTrace hm hk h, by simp [exec, e, e']⟩
      · exact .inr (.inr ⟨.inl h, _, by simp only [exec, e, e', commit_stopped]; rfl⟩)
      · exact .inr (.inr ⟨.inr h, _, by simp only [exec, e, e', commit_stopped]; rfl⟩)
  | cdec n =>
    rcases gatedByStore_cases (moveDown n) s with ⟨hs, e⟩ | ⟨hs, e⟩
    · rcases moveDown_cases n s with ⟨h, e'⟩ | ⟨h, e'⟩
      · exact .inl ⟨_, .cdec n hs h, by simp [exec, execCdec, e, e']⟩
      · exact .inr (.inl ⟨_, .cdec n hs h, by simp [exec, execCdec, e, e']⟩)
    · exact .inl ⟨_, .cdecGated n hs, by simp [exec, execCdec, e]⟩

/-- Everything an undo can do. -/
theorem undo_cases (i : Instr) (k : Nat) (s : State) :
    (∃ u, UndoCompletes s k i u ∧ undo i k s = .next (u.completeAt k)) ∨
    (∃ f, UndoRaises s i f ∧ undo i k s = .next (s.takeAddressFault f)) ∨
    ((s.cfg.memSize ≤ s.addr ∨ s.cfg.progCap ≤ k) ∧ ∃ r, undo i k s = .fault r) := by
  cases i with
  | inc n =>
    rcases moveDown_cases n s with ⟨h, e⟩ | ⟨h, e⟩
    · exact .inl ⟨_, .inc n h, by simp [undo, undoInc, e]⟩
    · exact .inr (.inl ⟨_, .inc n h, by simp [undo, undoInc, e]⟩)
  | inv =>
    rcases flipAddressed_cases s with ⟨h, e⟩ | ⟨h, e⟩
    · exact .inl ⟨_, .inv h, by simp [undo, undoInv, e]⟩
    · exact .inr (.inr ⟨.inl h, _, by simp only [undo, undoInv, e, commit_stopped]; rfl⟩)
  | load =>
    rcases undoLoad_cases k s with ⟨hm, e⟩ | ⟨hm, e⟩
    · rcases sampleAddressed_cases s with ⟨h, e'⟩ | ⟨h, e'⟩
      · exact .inl ⟨_, .loadResample hm h, by simp [undo, e, e']⟩
      · exact .inr (.inr ⟨.inl h, _, by simp only [undo, e, e', commit_stopped]; rfl⟩)
    · rcases restoreFromTrace_cases k s with ⟨h, e'⟩ | ⟨h, e'⟩
      · exact .inl ⟨_, .loadTrace hm h, by simp [undo, e, e']⟩
      · exact .inr (.inr ⟨.inr h, _, by simp only [undo, e, e', commit_stopped]; rfl⟩)
  | cdec n =>
    rcases gatedByStore_cases (moveUp n) s with ⟨hs, e⟩ | ⟨hs, e⟩
    · rcases moveUp_cases n s with ⟨h, e'⟩ | ⟨h, e'⟩
      · exact .inl ⟨_, .cdec n hs h, by simp [undo, undoCdec, e, e']⟩
      · exact .inr (.inl ⟨_, .cdec n hs h, by simp [undo, undoCdec, e, e']⟩)
    · exact .inl ⟨_, .cdecGated n hs, by simp [undo, undoCdec, e]⟩

/-! The converses: where an instruction completes or raises, `exec` and `undo` answer so. -/

theorem exec_of_raises {s : State} {i : Instr} {f : AddressFault} (h : Raises s i f) :
    exec i s = .next (s.takeAddressFault f) := by
  cases h with
  | inc n h => simp [exec, execInc, moveUp, h]
  | cdec n hs h => simp [exec, execCdec, gatedByStore, moveDown, hs, h]

theorem exec_of_completes {s u : State} {i : Instr} (h : Completes s i u) :
    exec i s = .next (u.completeAt (s.step + 1)) := by
  cases h with
  | inc n h => simp [exec, execInc, moveUp, Nat.not_le.2 h]
  | inv h => simp [exec, execInv, flipAddressed, withAddressedBit, h]
  | loadResample hm h => simp [exec, execLoad, hm, sampleAddressed, withAddressedBit, h]
  | loadTrace hm hk h => simp [exec, execLoad, hm, traceThenSample, hk, sampleAddressed, withAddressedBit, h]
  | cdec n hs h => simp [exec, execCdec, gatedByStore, moveDown, hs, Nat.not_lt.2 h]
  | cdecGated n hs => simp only [exec, execCdec, gatedByStore, if_neg hs, commit_done]

theorem undo_of_raises {s : State} {i : Instr} {f : AddressFault} (k : Nat) (h : UndoRaises s i f) :
    undo i k s = .next (s.takeAddressFault f) := by
  cases h with
  | inc n h => simp [undo, undoInc, moveDown, h]
  | cdec n hs h => simp [undo, undoCdec, gatedByStore, moveUp, hs, h]

theorem undo_of_completes {s u : State} {k : Nat} {i : Instr} (h : UndoCompletes s k i u) :
    undo i k s = .next (u.completeAt k) := by
  cases h with
  | inc n h => simp [undo, undoInc, moveDown, Nat.not_lt.2 h]
  | inv h => simp [undo, undoInv, flipAddressed, withAddressedBit, h]
  | loadResample hm h => simp [undo, undoLoad, hm, sampleAddressed, withAddressedBit, h]
  | loadTrace hm hk => simp [undo, undoLoad, hm, restoreFromTrace, hk]
  | cdec n hs h => simp [undo, undoCdec, gatedByStore, moveUp, hs, Nat.not_le.2 h]
  | cdecGated n hs => simp only [undo, undoCdec, gatedByStore, if_neg hs, commit_done]

/-- What a completed instruction leaves alone before the commit. -/
theorem Completes.frame {s u : State} {i : Instr} (h : Completes s i u) :
    u.cfg = s.cfg ∧ u.step = s.step ∧ u.flt = s.flt ∧ u.last = s.last ∧ u.prog = s.prog ∧ u.cmds = s.cmds ∧
      u.responses = s.responses := by
  cases h <;> exact ⟨rfl, rfl, rfl, rfl, rfl, rfl, rfl⟩

/-- What a completed undo leaves alone before the commit. -/
theorem UndoCompletes.frame {s u : State} {k : Nat} {i : Instr} (h : UndoCompletes s k i u) :
    u.cfg = s.cfg ∧ u.step = s.step ∧ u.flt = s.flt ∧ u.last = s.last ∧ u.undo = s.undo ∧ u.prog = s.prog ∧
      u.cmds = s.cmds ∧ u.responses = s.responses := by
  cases h <;> exact ⟨rfl, rfl, rfl, rfl, rfl, rfl, rfl, rfl⟩

/-! ### The sequencers -/

/-- Everything a Forward can do that answers a next state (40_forward.md R80). -/
theorem forward_next {s t : State} (h : forward s = .next t) :
    (s.step = s.progLen ∧ t = s.withLast .noopDone) ∨
    ∃ w i, s.step < s.progLen ∧ s.fetch s.step = some w ∧ decode w = i ∧
      ((∃ u, Completes s i u ∧ t = u.completeAt (s.step + 1)) ∨
       (∃ f, Raises s i f ∧ t = s.takeAddressFault f)) := by
  unfold forward at h
  split at h
  · exact .inl ⟨(State.done_iff s).1 ‹_›, by simpa using h.symm⟩
  · split at h
    · rename_i w hw
      have hk : s.step < s.progLen := by
        by_contra hk
        rw [(fetch_eq_none_iff s s.step).2 (by omega)] at hw
        cases hw
      refine .inr ⟨w, _, hk, hw, rfl, ?_⟩
      rcases exec_cases (decode w) s with ⟨u, hu, e⟩ | ⟨f, hf, e⟩ | ⟨-, r, e⟩
      · exact .inl ⟨u, hu, by rw [e] at h; simpa using h.symm⟩
      · exact .inr ⟨f, hf, by rw [e] at h; simpa using h.symm⟩
      · rw [e] at h
        cases h
    · cases h

/-- Everything a Backward can do that answers a next state (41_backward.md R100). -/
theorem backward_next {s t : State} (h : backward s = .next t) :
    (s.step = 0 ∧ t = s.withLast .noopAtStart) ∨
    ∃ k w i, s.step = k + 1 ∧ s.fetch k = some w ∧ decode w = i ∧
      ((∃ u, UndoCompletes s k i u ∧ t = u.completeAt k) ∨
       (∃ f, UndoRaises s i f ∧ t = s.takeAddressFault f)) := by
  unfold backward at h
  split at h
  · exact .inl ⟨‹_›, by simpa using h.symm⟩
  · rename_i k hk
    split at h
    · rename_i w hw
      refine .inr ⟨k, w, _, hk, hw, rfl, ?_⟩
      rcases undo_cases (decode w) k s with ⟨u, hu, e⟩ | ⟨f, hf, e⟩ | ⟨-, r, e⟩
      · exact .inl ⟨u, hu, by rw [e] at h; simpa using h.symm⟩
      · exact .inr ⟨f, hf, by rw [e] at h; simpa using h.symm⟩
      · rw [e] at h
        cases h
    · cases h

/-- A transitive relation that every Forward keeps holds between the state a run starts
in and the one it leaves: the loop's induction, packaged once (45_host_interface.md R125). -/
theorem run_induction {R : State → State → Prop} (trans : ∀ s t u, R s t → R t u → R s u)
    (fwd : ∀ s t, forward s = .next t → R s t) {s t : State} (h : run s = .next t) : R s t := by
  have loop : ∀ fuel s t, runLoop fuel s = .next t → R s t := by
    intro fuel
    induction fuel with
    | zero => intro s t h; cases h
    | succ fuel ih =>
      intro s t h
      unfold runLoop at h
      split at h
      · rename_i u hu
        split at h
        · exact trans _ _ _ (fwd _ _ hu) (ih _ _ h)
        · obtain rfl : u = t := by simpa using h
          exact fwd _ _ hu
      · cases h
      · cases h
  unfold run at h
  split at h
  · rename_i hd
    refine fwd _ _ ?_
    unfold forward
    rw [if_pos hd]
    exact h
  · exact loop _ _ _ h

/-! ### One step -/

theorem step_eq_processCommand (s : State) : step s = processCommand s := rfl

/-- A step with no command issued changes nothing (45_host_interface.md R120). -/
theorem processCommand_nil {s : State} (h : s.cmds = []) : processCommand s = .next s := by
  simp [processCommand, h]

/-- A step with a command issued performs the oldest one and answers it. -/
theorem processCommand_cons {s : State} {c : Command} {rest : List Command} (h : s.cmds = c :: rest) :
    processCommand s =
      match performCommand c s with
      | .next (t, r) => .next (t.answer rest r)
      | .fault f => .fault f
      | .refused r => .refused r := by
  cases s
  cases h
  rfl

/-- Everything a step that answers a next state can do. -/
theorem step_next {s t : State} (h : step s = .next t) :
    (s.cmds = [] ∧ t = s) ∨
    ∃ c rest u r, s.cmds = c :: rest ∧ performCommand c s = .next (u, r) ∧ t = u.answer rest r := by
  cases hc : s.cmds with
  | nil =>
    rw [step_eq_processCommand, processCommand_nil hc] at h
    exact .inl ⟨rfl, by simpa using h.symm⟩
  | cons c rest =>
    rw [step_eq_processCommand, processCommand_cons hc] at h
    cases hp : performCommand c s with
    | next p =>
      obtain ⟨u, r⟩ := p
      rw [hp] at h
      exact .inr ⟨c, rest, u, r, rfl, by simp [hp], by simpa using h.symm⟩
    | fault f => rw [hp] at h; cases h
    | refused f => rw [hp] at h; cases h

/-- Everything a performed command can do that answers a next state: the response and the state of each. -/
theorem performCommand_next {c : Command} {s u : State} {r : Response} (h : performCommand c s = .next (u, r)) :
    (c = .reset ∧ u = s.resetEngine ∧ r = .of .ok 0) ∨
    (c = .forward ∧ forward s = .next u ∧ r = ⟨u.last, 0⟩) ∨
    (c = .backward ∧ backward s = .next u ∧ r = ⟨u.last, 0⟩) ∨
    (c = .run ∧ run s = .next u ∧ r = ⟨u.last, 0⟩) ∨
    (∃ a v, c = .memWrite a v ∧
      ((s.cfg.memSize ≤ a.toNat ∧ u = s ∧ r = .of .badArgument 0) ∨
       (a.toNat < s.cfg.memSize ∧ u = s.writeMem a.toNat (v.extractLsb' 0 1) ∧ r = .of .ok 0))) ∨
    (∃ a, c = .memRead a ∧ u = s ∧
      ((s.cfg.memSize ≤ a.toNat ∧ r = .of .badArgument 0) ∨
       (a.toNat < s.cfg.memSize ∧ r = .of .ok ((s.mem.read a.toNat).setWidth 32)))) ∨
    (∃ i, c = .readReg i ∧ u = s ∧
      ((s.register i = none ∧ r = .of .badArgument 0) ∨ ∃ v, s.register i = some v ∧ r = .of .ok v)) ∨
    (∃ ws, c = .loadProgram ws ∧
      ((s.cfg.progCap < ws.length ∧ u = s ∧ r = .of .badArgument 0) ∨
       (ws.length ≤ s.cfg.progCap ∧ u = (s.withProgram ws).resetEngine ∧ r = .of .ok 0))) := by
  have last : ∀ o, respondLast o = .next (u, r) → o = .next u ∧ r = ⟨u.last, 0⟩ := by
    intro o ho
    cases o with
    | next t =>
      simp only [respondLast, Host.Outcome.next.injEq, Prod.mk.injEq] at ho
      obtain ⟨rfl, rfl⟩ := ho
      exact ⟨rfl, rfl⟩
    | fault f => cases ho
    | refused f => cases ho
  cases c with
  | reset =>
    simp only [performCommand, cmdReset, Host.Outcome.next.injEq, Prod.mk.injEq] at h
    exact .inl ⟨rfl, h.1.symm, h.2.symm⟩
  | forward => exact .inr (.inl ⟨rfl, last _ h⟩)
  | backward => exact .inr (.inr (.inl ⟨rfl, last _ h⟩))
  | run => exact .inr (.inr (.inr (.inl ⟨rfl, last _ h⟩)))
  | memWrite a v =>
    refine .inr (.inr (.inr (.inr (.inl ⟨a, v, rfl, ?_⟩))))
    simp only [performCommand, cmdMemWrite] at h
    split at h <;> simp only [Host.Outcome.next.injEq, Prod.mk.injEq] at h
    · exact .inl ⟨by omega, h.1.symm, h.2.symm⟩
    · exact .inr ⟨by omega, h.1.symm, h.2.symm⟩
  | memRead a =>
    refine .inr (.inr (.inr (.inr (.inr (.inl ⟨a, rfl, ?_⟩)))))
    simp only [performCommand, cmdMemRead] at h
    split at h <;> simp only [Host.Outcome.next.injEq, Prod.mk.injEq] at h
    · exact ⟨h.1.symm, .inl ⟨by omega, h.2.symm⟩⟩
    · exact ⟨h.1.symm, .inr ⟨by omega, h.2.symm⟩⟩
  | readReg i =>
    refine .inr (.inr (.inr (.inr (.inr (.inr (.inl ⟨i, rfl, ?_⟩))))))
    simp only [performCommand, cmdReadReg] at h
    split at h <;> simp only [Host.Outcome.next.injEq, Prod.mk.injEq] at h
    · rename_i v hv
      exact ⟨h.1.symm, .inr ⟨v, hv, h.2.symm⟩⟩
    · rename_i hv
      exact ⟨h.1.symm, .inl ⟨hv, h.2.symm⟩⟩
  | loadProgram ws =>
    refine .inr (.inr (.inr (.inr (.inr (.inr (.inr ⟨ws, rfl, ?_⟩))))))
    simp only [performCommand, cmdLoadProgram] at h
    split at h <;> simp only [Host.Outcome.next.injEq, Prod.mk.injEq] at h
    · exact .inl ⟨by omega, h.1.symm, h.2.symm⟩
    · exact .inr ⟨by omega, h.1.symm, h.2.symm⟩

/-- One step that answers a next state, and then `n` more. -/
theorem stepTimes_succ_of_next (n : Nat) {s t : State} (h : step s = .next t) :
    stepTimes (n + 1) s = stepTimes n t := by
  simp [stepTimes, h]

end Sys2Proof.Machine
end

