-- ==== Sys2Proof/Laws/History.lean ====
section
/-! SUPPORT. The small lemmas of `retraces`, so that it is not unfolded elsewhere (41_backward.md R108, R109). -/

namespace Sys2Proof.Machine

theorem retraces_zero_iff (size : Nat) (prog : List Word) (undo : Memory) (a : Nat) (b : Bit) :
    retraces size prog undo 0 a b ↔ a = 0 ∧ b = 0 := Iff.rfl

/-- One more slot can be retraced exactly if its instruction's exact inverse stays in range and the slots below it can
be retraced from there. -/
theorem retraces_succ_iff {size : Nat} {prog : List Word} {undo : Memory} {j a : Nat} {b : Bit} {w : Word} {i : Instr}
    (hw : prog[j]? = some w) (hd : decode w = i) :
    retraces size prog undo (j + 1) a b ↔
      ∃ p, undoPair size i (undo.read j) a b = some p ∧ p.1 < size ∧ retraces size prog undo j p.1 p.2 := by
  subst hd
  simp only [retraces, hw]
  cases undoPair size (decode w) (undo.read j) a b with
  | none => simp
  | some p => simp

/-- Only the undo trace's bits below the slot matter. -/
theorem retraces_congr {size : Nat} {prog : List Word} {u v : Memory} (j : Nat) {a : Nat} {b : Bit}
    (h : ∀ k, k < j → u.read k = v.read k) : retraces size prog u j a b → retraces size prog v j a b := by
  induction j generalizing a b with
  | zero => exact id
  | succ j ih =>
    cases hw : prog[j]? with
    | none => simp [retraces, hw]
    | some w =>
      rw [retraces_succ_iff hw rfl, retraces_succ_iff hw rfl, h j (Nat.lt_succ_self j)]
      rintro ⟨p, hp, hlt, hr⟩
      exact ⟨p, hp, hlt, ih (fun k hk => h k (Nat.lt_succ_of_lt hk)) hr⟩

end Sys2Proof.Machine
end

