-- ==== Sys2Proof/Laws/PerInstr.lean ====
section
/-! SUPPORT. Statements made per instruction. `OpcodeBits`: the two top bits of an instruction's word are those the
opcode map gives its mnemonic (30_encoding.md R60, R61), whatever its count. -/

namespace Sys2Proof.Laws

theorem packWord_div (op : BitVec 2) (cnt : BitVec 30) : (packWord op cnt).toNat / 2 ^ 30 = op.toNat := by
  have h : cnt.toNat < 2 ^ 30 := cnt.isLt
  rw [packWord, BitVec.toNat_append, ← Nat.shiftLeft_add_eq_or_of_lt h, Nat.shiftLeft_eq]
  omega

/-- The value of bits 31:30 that R61 gives each mnemonic. -/
def OpcodeBits.value : Instr → Nat
  | .inc _ => 0
  | .inv => 1
  | .load => 2
  | .cdec _ => 3

def OpcodeBits.Statement (i : Instr) : Prop := (encode i).toNat / 2 ^ 30 = OpcodeBits.value i

theorem OpcodeBits.inc (n : Nat) : OpcodeBits.Statement (.inc n) := packWord_div _ _
theorem OpcodeBits.inv : OpcodeBits.Statement .inv := packWord_div _ _
theorem OpcodeBits.load : OpcodeBits.Statement .load := packWord_div _ _
theorem OpcodeBits.cdec (n : Nat) : OpcodeBits.Statement (.cdec n) := packWord_div _ _

end Sys2Proof.Laws
end

