-- ==== Sys2Proof/Tests/Slice0.lean ====
section
/-! SUPPORT. The model's own tests, their expected results taken from the spec (30_encoding.md, 95_test_vectors.md), and
one witness for each obligation that has hypotheses: concrete states and operands that meet all of them together. -/

namespace Sys2Proof.Tests

open Sys2Proof Sys2Proof.Machine

/-! ### Small states and views -/

/-- The parameters most vectors of 95_test_vectors.md use: MEM_SIZE = 8, PROG_CAP = 16. -/
def eight (m : UndoMode) : Config := { memSize := 8, progCap := 16, undoMode := m }

/-- A state of MEM_SIZE 8 with the program, memory and `addr`/`store`/`step` given; FLT = LAST = 0. -/
def st (m : UndoMode) (prog : List Word) (mem : Memory) (addr : Nat) (store : Bit) (step : Nat) : State :=
  { State.powerOn (eight m) with prog := prog, mem := mem, addr := addr, store := store, step := step }

/-- The five registers. -/
structure Regs where
  addr : Nat
  store : Bit
  step : Nat
  flt : BitVec 2
  last : BitVec 3
deriving DecidableEq, Repr

/-- The registers of the state an outcome leaves. -/
def regs : Host.Outcome State Fault Refusal → Option Regs
  | .next t => some ⟨t.addr, t.store, t.step, t.flt, t.last⟩
  | _ => none

/-- The memory of the state an outcome leaves. -/
def memAfter : Host.Outcome State Fault Refusal → Option Memory
  | .next t => some t.mem
  | _ => none

/-- The undo trace of the state an outcome leaves. -/
def undoAfter : Host.Outcome State Fault Refusal → Option Memory
  | .next t => some t.undo
  | _ => none

/-- The newest response of the state an outcome leaves: (result, data). -/
def answer : Host.Outcome State Fault Refusal → Option (BitVec 3 × Word)
  | .next t => t.responses.head?.map fun r => (r.result, r.data)
  | _ => none

/-- The state an outcome leaves, or the machine's reset state. -/
def after : Host.Outcome State Fault Refusal → State
  | .next t => t
  | _ => State.reset

/-- The invariants from their decidable checks. -/
theorem inv_of (s : State)
    (h : s.addr < s.cfg.memSize ∧ s.step ≤ s.progLen ∧ s.progLen ≤ s.cfg.progCap ∧ s.flt ≠ 3 ∧ s.last.toNat ≤ 4 ∧
      s.mem.wf ∧ s.mem.within s.cfg.memSize ∧ s.undo.wf ∧ s.undo.within s.cfg.progCap ∧
      (s.cfg.undoMode = .resample → s.undo = []) ∧ ∀ r ∈ s.responses, r.result.toNat ≤ 5) : s.Inv :=
  ⟨h.1, h.2.1, h.2.2.1, h.2.2.2.1, h.2.2.2.2.1, h.2.2.2.2.2.1, h.2.2.2.2.2.2.1, h.2.2.2.2.2.2.2.1,
    h.2.2.2.2.2.2.2.2.1, h.2.2.2.2.2.2.2.2.2.1, h.2.2.2.2.2.2.2.2.2.2⟩

/-! ### WellFormed refuses ill-formed terms -/

/-- R62: a count of 2^30 does not fit. -/
theorem test_wellFormed_refuses_long_counts :
    (Instr.inc 1073741824).wellFormed = false ∧ (Instr.cdec 1073741824).wellFormed = false := by decide

/-- R5, R6: MEM_SIZE 0, MEM_SIZE 2^32 + 1 and PROG_CAP 2^32 are out of bounds. -/
theorem test_parameters_out_of_bounds :
    parametersInBounds 0 0 = false ∧ parametersInBounds 4294967297 0 = false ∧
    parametersInBounds 1 4294967296 = false ∧ parametersInBounds 1 0 = true := by decide

/-- R5, R6: an engine of MEM_SIZE 0 is not built; one of MEM_SIZE 1 and PROG_CAP 0 is. -/
theorem test_build : buildEngine 0 0 .trace = none ∧ (buildEngine 1 0 .trace).isSome = true := by decide

/-! ### Decoding, from the words of 30_encoding.md R61 and vectors V22 to V27 -/

/-- `INC`: op = 00; V22, V27 and `INC 5`. -/
theorem test_decode_inc :
    decode 0b00000000000000000000000000000000#32 = .inc 0 ∧
    decode 0b00000000000000000000000000000101#32 = .inc 5 ∧
    decode 0b00111111111111111111111111111111#32 = .inc 1073741823 := by decide

/-- `INV`: op = 01, reserved bits ignored; V23, V24. -/
theorem test_decode_inv :
    decode 0b01000000000000000000000000000000#32 = .inv ∧
    decode 0b01000000000000000000000000000001#32 = .inv ∧
    decode 0b01111111111111111111111111111111#32 = .inv := by decide

/-- `LOAD`: op = 10, reserved bits ignored; V25. -/
theorem test_decode_load :
    decode 0b10000000000000000000000000000000#32 = .load ∧
    decode 0b10111111111111111111111111111111#32 = .load := by decide

/-- `CDEC`: op = 11; V26 and `CDEC 9`. -/
theorem test_decode_cdec :
    decode 0b11000000000000000000000000001001#32 = .cdec 9 ∧
    decode 0b11111111111111111111111111111111#32 = .cdec 1073741823 := by decide

/-- R61: the words of R68's examples. -/
theorem test_encode :
    encode (.inc 5) = 0x00000005#32 ∧ encode .inv = 0x40000000#32 ∧ encode .load = 0x80000000#32 ∧
    encode (.cdec 9) = 0xC0000009#32 := by decide

/-- The rows of spec/opcode_table.json, their 32 bits numbered from the least significant. -/
theorem test_decodeTableWord :
    decodeTableWord 32 0x00000007 = some (.inc 7) ∧ decodeTableWord 32 0x40000001 = some .inv ∧
    decodeTableWord 32 0x80000000 = some .load ∧ decodeTableWord 32 0xC0000007 = some (.cdec 7) := by decide

/-! ### One forward step of each instruction (95_test_vectors.md 2.2 to 2.5) -/

/-- V31, V32. -/
theorem test_inc :
    regs (forward (st .resample [0x00000002#32] [] 5 0 0)) = some ⟨7, 0, 1, 0, 0⟩ ∧
    regs (forward (st .resample [0, 0, 0, 0x00000003#32] [] 5 1 3)) = some ⟨5, 1, 3, 2, 2⟩ := by decide

/-- V37: the sum is exact at MEM_SIZE = 2^32; V38: the first fault is kept. -/
theorem test_inc_exact_sum :
    regs (exec (.inc 1073741823) { State.reset with addr := 4294967295 }) = some ⟨4294967295, 0, 0, 2, 2⟩ ∧
    regs (exec (.inc 3) { st .resample [] [] 5 0 2 with flt := 1 }) = some ⟨5, 0, 2, 1, 2⟩ := by decide

/-- V41: `store` is not touched; V43: only MEM[7]. -/
theorem test_inv :
    regs (forward (st .resample [0, 0x40000000#32] [(3, 1)] 3 1 1)) = some ⟨3, 1, 2, 0, 0⟩ ∧
    memAfter (forward (st .resample [0, 0x40000000#32] [(3, 1)] 3 1 1)) = some [] ∧
    memAfter (forward (st .resample [0x40000000#32]
      [(0, 1), (1, 1), (2, 1), (3, 1), (4, 1), (5, 1), (6, 1), (7, 1)] 7 0 0)) =
      some [(0, 1), (1, 1), (2, 1), (3, 1), (4, 1), (5, 1), (6, 1)] := by decide

/-- V50, V51; V54: UNDO[5] takes the old `store`. -/
theorem test_load :
    regs (exec .load (st .resample [] [(0, 1)] 0 0 0)) = some ⟨0, 1, 1, 0, 0⟩ ∧
    regs (exec .load (st .resample [] [] 4 1 2)) = some ⟨4, 0, 3, 0, 0⟩ ∧
    regs (exec .load (st .trace [] [] 0 1 5)) = some ⟨0, 0, 6, 0, 0⟩ ∧
    undoAfter (exec .load (st .trace [] [] 0 1 5)) = some [(5, 1)] := by decide

/-- V61, V62. -/
theorem test_cdec :
    regs (exec (.cdec 5) (st .resample [] [] 5 1 0)) = some ⟨0, 1, 1, 0, 0⟩ ∧
    regs (exec (.cdec 6) (st .resample [] [] 5 1 0)) = some ⟨5, 1, 0, 1, 1⟩ := by decide

/-- V63: gated off; V67: the first fault is kept. -/
theorem test_cdec_gate :
    regs (exec (.cdec 9) (st .resample [] [] 5 0 0)) = some ⟨5, 0, 1, 0, 0⟩ ∧
    regs (exec (.cdec 4) { st .resample [] [] 3 1 4 with flt := 2 }) = some ⟨3, 1, 4, 2, 1⟩ := by decide

/-! ### The undo of each instruction (95_test_vectors.md 2.7) and the sequencers (2.6) -/

/-- V82, V83. -/
theorem test_backward_inc :
    regs (backward (st .resample [0x00000002#32] [] 7 1 1)) = some ⟨5, 1, 0, 0, 0⟩ ∧
    regs (backward (st .resample [0x00000003#32] [] 1 0 1)) = some ⟨1, 0, 1, 1, 1⟩ := by decide

/-- V84. -/
theorem test_backward_inv :
    memAfter (backward (st .resample [0x40000000#32] [(3, 1)] 3 0 1)) = some [] := by decide

/-- V85, V86. -/
theorem test_backward_load :
    regs (backward (st .resample [0x80000000#32] [(0, 1)] 0 1 1)) = some ⟨0, 1, 0, 0, 0⟩ ∧
    regs (backward (st .trace [0x80000000#32] [(0, 1)] 0 1 1)) = some ⟨0, 0, 0, 0, 0⟩ := by decide

/-- V88, V89, V90. -/
theorem test_backward_cdec :
    regs (backward (st .resample [0xC0000002#32] [] 3 1 1)) = some ⟨5, 1, 0, 0, 0⟩ ∧
    regs (backward (st .resample [0xC0000002#32] [] 3 0 1)) = some ⟨3, 0, 0, 0, 0⟩ ∧
    regs (backward (st .resample [0xC0000002#32] [] 6 1 1)) = some ⟨6, 1, 1, 2, 2⟩ := by decide

/-- V70, V80: the two no-ops; V76: RUN on the empty program. -/
theorem test_noops :
    regs (forward (st .resample [] [] 5 1 0)) = some ⟨5, 1, 0, 0, 3⟩ ∧
    regs (backward (st .resample [0#32] [] 5 1 0)) = some ⟨5, 1, 0, 0, 4⟩ ∧
    regs (run (st .resample [] [] 5 1 0)) = some ⟨5, 1, 0, 0, 3⟩ := by decide

/-! ### Host commands (95_test_vectors.md 2.8) -/

/-- V101, V102: only bit 0 of `v`; address 8 of 8 is out of range. -/
theorem test_memWrite :
    memAfter (step { st .resample [] [(3, 1)] 0 0 0 with cmds := [.memWrite 3 0xFFFFFFFE] }) = some [] ∧
    answer (step { st .resample [] [] 0 0 0 with cmds := [.memWrite 8 1] }) = some (5, 0) := by decide

/-- V103, V104. -/
theorem test_memRead :
    answer (step { st .resample [] [(3, 1)] 0 0 0 with cmds := [.memRead 3] }) = some (0, 1) ∧
    answer (step { st .resample [] [] 0 0 0 with cmds := [.memRead 8] }) = some (5, 0) := by decide

/-- V109's STATUS word, V112, V113. -/
theorem test_readReg :
    answer (step { st .trace [0, 0, 0, 0, 0] [] 1 1 4 with flt := 2, last := 2, cmds := [.readReg 0] }) =
      some (0, 0x000000AA) ∧
    answer (step { State.reset with cmds := [.readReg 4] }) = some (0, 0xFFFFFFFF) ∧
    answer (step { st .resample [] [] 0 0 0 with cmds := [.readReg 5] }) = some (5, 0) := by decide

/-- V115, V116: STATUS is 1 after an empty load. -/
theorem test_loadProgram :
    regs (step { st .resample [0] [(2, 1)] 1 1 1 with flt := 2, cmds := [.loadProgram [0x40000000#32]] }) =
      some ⟨0, 0, 0, 0, 0⟩ ∧
    (after (step { st .resample [0] [] 1 1 1 with cmds := [.loadProgram []] })).status = 1 := by decide

/-- The host's interface: a fetched word runs as the very next step. -/
theorem test_withFetchWord :
    regs (step (State.reset.withFetchWord 32 0x00000007)) = some ⟨7, 0, 1, 0, 0⟩ ∧
    memAfter (step (State.reset.withFetchWord 32 0x40000001)) = some [(0, 1)] := by decide

/-! ### Program text (95_test_vectors.md 2.1) -/

set_option maxRecDepth 4000 in
/-- V9, V15, V17. -/
theorem test_assemble_lines :
    assemble ['C', 'D', 'E', 'C', ' ', '0', '0', '7'] = .ok { memSize := none, words := [0xC0000007#32] } ∧
    assemble ['I', 'N', 'C', ' ', '-', '1'] = .error { token := ['-', '1'], line := 0 } ∧
    assemble ['I', 'N', 'C', '\n', '\n', 'N', 'O', 'P', '\n'] = .error { token := ['N', 'O', 'P'], line := 2 } := by
  decide

set_option maxRecDepth 4000 in
/-- V19's header, V20. -/
theorem test_assemble_header :
    assemble ['s', ':', ' ', '1', '6', '\n', 'I', 'N', 'V', '\n'] =
      .ok { memSize := some 16, words := [0x40000000#32] } ∧
    assemble ['s', ':', ' ', '8', '\n', 'F', '\n'] = .error { token := ['F'], line := 1 } := by decide

/-- R69: a header is met by an engine of exactly its MEM_SIZE; with no header every engine will do. -/
theorem test_fits :
    Assembly.fits { memSize := some 8, words := [] } (eight .trace) = true ∧
    Assembly.fits { memSize := some 0, words := [] } (eight .trace) = false ∧
    Assembly.fits { memSize := some 9, words := [] } (eight .trace) = false ∧
    Assembly.fits { memSize := none, words := [] } (eight .trace) = true := by decide

/-! ### Witnesses: for each obligation with hypotheses, states and operands that meet them together, with a boundary
value for each clause -/

/-- P1 of 95_test_vectors.md section 3, at the slot and registers given. -/
def p1 (m : UndoMode) (mem : Memory) (addr : Nat) (store : Bit) (step : Nat) : State :=
  st m [0x00000003#32, 0x40000000#32, 0x80000000#32, 0xC0000002#32, 0x80000000#32, 0xC0000001#32, 0x40000000#32,
    0x00000004#32] mem addr store step

/-- P4 of 95_test_vectors.md section 3 where its fifth Forward faults, with the commands given. -/
def p4 (cs : List Command) : State :=
  { State.powerOn { memSize := 4, progCap := 16, undoMode := .resample } with
    prog := [0x00000002#32, 0x40000000#32, 0x80000000#32, 0xC0000001#32, 0x00000003#32], mem := [(2, 1)], addr := 1,
    store := 1, step := 4, cmds := cs }

/-- The largest word of each opcode. -/
theorem witness_DecodeByTopTwoBits :
    (0x3FFFFFFF#32).toNat / 2 ^ 30 = 0 ∧ (0x7FFFFFFF#32).toNat / 2 ^ 30 = 1 ∧
    (0xBFFFFFFF#32).toNat / 2 ^ 30 = 2 ∧ (0xFFFFFFFF#32).toNat / 2 ^ 30 = 3 := by decide

/-- Both ends of the count field, and the two instructions without one. -/
theorem witness_DecodeEncodeGivesInstruction :
    (Instr.inc 1073741823).wellFormed = true ∧ (Instr.cdec 0).wellFormed = true ∧ Instr.inv.wellFormed = true ∧
    Instr.load.wellFormed = true := by decide

/-- The smallest word of each opcode. -/
theorem witness_EncodeDecodeClearsReservedBits :
    ((0x00000000#32).toNat / 2 ^ 30 = 0 ∨ (0x00000000#32).toNat / 2 ^ 30 = 3) ∧
    ((0xC0000000#32).toNat / 2 ^ 30 = 0 ∨ (0xC0000000#32).toNat / 2 ^ 30 = 3) ∧
    (0x40000000#32).toNat / 2 ^ 30 = 1 ∧ (0x80000000#32).toNat / 2 ^ 30 = 2 := by decide

theorem witness_ProgramTextAssembles :
    ∀ i ∈ [Instr.inc 1073741823, .inv, .load, .cdec 0], i.wellFormed = true := by decide

/-- A label, and the colon alone (log entry 14). -/
theorem witness_HeaderLineAsksForMemorySize :
    (∀ c ∈ ['s', 'i', 'z', 'e'], isBlank c = false ∧ isNewline c = false) ∧
    (∀ c ∈ ([] : Text), isBlank c = false ∧ isNewline c = false) ∧ ∀ i ∈ [Instr.inc 1, .inv], i.wellFormed = true := by simp [isBlank, isNewline, Instr.wellFormed, countInRange]

/-- The token of V17. -/
theorem witness_UnknownMnemonicIsReported :
    ['N', 'O', 'P'] ≠ [] ∧ (∀ c ∈ ['N', 'O', 'P'], isBlank c = false ∧ isNewline c = false) ∧
    ['N', 'O', 'P'] ≠ ['I', 'N', 'C'] ∧ ['N', 'O', 'P'] ≠ ['I', 'N', 'V'] ∧
    ['N', 'O', 'P'] ≠ ['L', 'O', 'A', 'D'] ∧ ['N', 'O', 'P'] ≠ ['C', 'D', 'E', 'C'] := by
  simp [isBlank, isNewline]

set_option maxRecDepth 4000 in
/-- The token of V13, and that of V5: 2^30, the smallest count out of range. -/
theorem witness_BadOperandIsReported :
    (['x'] ≠ [] ∧ (∀ c ∈ ['x'], isBlank c = false ∧ isNewline c = false) ∧
      ((¬ ∀ c ∈ ['x'], isDigitChar c = true) ∨ 2 ^ 30 ≤ decimalValue ['x'])) ∧
    ((∀ c ∈ ['1', '0', '7', '3', '7', '4', '1', '8', '2', '4'], isBlank c = false ∧ isNewline c = false) ∧
      ((¬ ∀ c ∈ ['1', '0', '7', '3', '7', '4', '1', '8', '2', '4'], isDigitChar c = true) ∨
        2 ^ 30 ≤ decimalValue ['1', '0', '7', '3', '7', '4', '1', '8', '2', '4'])) := by
  refine ⟨⟨by simp, by simp [isBlank, isNewline], .inl (by simp [isDigitChar])⟩,
    by simp [isBlank, isNewline], .inr (by simp [decimalValue])⟩

/-- Both ends of both bounds, and the values next to them outside. -/
theorem witness_EngineBuiltExactlyWithinBounds :
    (1 ≤ 1 ∧ 1 ≤ 2 ^ 32 ∧ 0 ≤ 2 ^ 32 - 1) ∧ (1 ≤ 2 ^ 32 ∧ 2 ^ 32 ≤ 2 ^ 32 ∧ 2 ^ 32 - 1 ≤ 2 ^ 32 - 1) ∧
    ¬ (1 ≤ 0 ∧ 0 ≤ 2 ^ 32 ∧ 0 ≤ 2 ^ 32 - 1) ∧ ¬ (1 ≤ 2 ^ 32 + 1 ∧ 2 ^ 32 + 1 ≤ 2 ^ 32 ∧ 0 ≤ 2 ^ 32 - 1) ∧
    ¬ (1 ≤ 1 ∧ 1 ≤ 2 ^ 32 ∧ 2 ^ 32 ≤ 2 ^ 32 - 1) := by decide

/-- V120: RESET after the fault of P4. -/
theorem witness_ResetCommandClearsEngine :
    (p4 [.reset, .forward]).cmds = .reset :: [.forward] := by decide

/-- V114: 17 words for PROG_CAP 16; and 16 words, which fit. -/
theorem witness_LoadProgramStoresWordsAndResets :
    ((p4 [.loadProgram (List.replicate 17 5)]).cmds = .loadProgram (List.replicate 17 5) :: [] ∧
      (p4 []).cfg.progCap < (List.replicate 17 (5 : Word)).length) ∧
    ((p4 [.loadProgram (List.replicate 16 5)]).cmds = .loadProgram (List.replicate 16 5) :: [] ∧
      (List.replicate 16 (5 : Word)).length ≤ (p4 []).cfg.progCap) := by decide

/-- LOAD_PROGRAM after P4's fault, and RESET of another engine that holds the same word, mid-run and faulted. -/
theorem witness_PostConstructionEqualsPostReset :
    (p4 [.loadProgram [0x40000000], .run]).cmds = .loadProgram [0x40000000] :: [.run] ∧
    [0x40000000#32].length ≤ (p4 [.loadProgram [0x40000000], .run]).cfg.progCap ∧
    { p4 [.reset] with prog := [0x40000000], step := 1, flt := 2, last := 2 }.cmds = .reset :: [] ∧
    { p4 [.reset] with prog := [0x40000000], step := 1, flt := 2, last := 2 }.prog = [0x40000000] ∧
    { p4 [.reset] with prog := [0x40000000], step := 1, flt := 2, last := 2 }.cfg =
      (p4 [.loadProgram [0x40000000], .run]).cfg := by decide

/-- `INC 2` to the last bit (V31), `INC 3` past it (V32), and the largest count. -/
theorem witness_IncMovesAddressUpOrFaults :
    (st .resample [] [] 5 0 0).addr + 2 < (st .resample [] [] 5 0 0).cfg.memSize ∧
    (st .resample [] [] 5 0 0).cfg.memSize ≤ (st .resample [] [] 5 0 0).addr + 3 ∧ 1073741823 < 2 ^ 30 := by decide

/-- The last bit of memory, and the largest reserved field. -/
theorem witness_InvFlipsOnlyAddressedBit :
    (st .resample [] [(7, 1)] 7 0 0).addr < (st .resample [] [(7, 1)] 7 0 0).cfg.memSize ∧
    (st .resample [] [(7, 1)] 7 0 0).mem.wf ∧ exec .inv (st .resample [] [(7, 1)] 7 0 0) =
      .next (st .resample [] [] 7 0 1) ∧ (st .resample [] [] 7 0 1).mem ≠ (st .resample [] [(7, 1)] 7 0 0).mem ∧
    1073741823 < 2 ^ 30 := ⟨by decide, by decide, rfl, by decide⟩

/-- The last bit of memory in both modes; under TRACE the last slot, with UNDO listed before it. -/
theorem witness_LoadLatchesAddressedBit :
    ((st .resample [] [(7, 1)] 7 0 0).addr < (st .resample [] [(7, 1)] 7 0 0).cfg.memSize ∧
      (st .resample [] [(7, 1)] 7 0 0).cfg.undoMode = .resample) ∧
    ((st .trace [] [(7, 1)] 7 1 15).addr < (st .trace [] [(7, 1)] 7 1 15).cfg.memSize ∧
      (st .trace [] [(7, 1)] 7 1 15).cfg.undoMode = .trace ∧
      (st .trace [] [(7, 1)] 7 1 15).step < (st .trace [] [(7, 1)] 7 1 15).cfg.progCap ∧
      { st .trace [] [(7, 1)] 7 1 15 with undo := [(3, 1)] }.undo.wf) ∧
    (exec .load (st .resample [] [(7, 1)] 7 0 0) = .next (st .resample [] [(7, 1)] 7 1 1) ∧
      (st .resample [] [(7, 1)] 7 1 1).store ≠ (st .resample [] [(7, 1)] 7 0 0).store) ∧ 1073741823 < 2 ^ 30 :=
  ⟨by decide, by decide, ⟨rfl, by decide⟩, by decide⟩

/-- Gated off (V63); `n = addr` (V61) and `n = addr + 1` (V62); the largest count. -/
theorem witness_CdecMovesAddressDownIfStore :
    (st .resample [] [] 5 0 0).store = 0 ∧
    ((st .resample [] [] 5 1 0).store = 1 ∧ 5 ≤ (st .resample [] [] 5 1 0).addr) ∧
    ((st .resample [] [] 5 1 0).store = 1 ∧ (st .resample [] [] 5 1 0).addr < 6) ∧ 1073741823 < 2 ^ 30 := by decide

/-- `addr` = MEM_SIZE in both modes, `step` and `k` = PROG_CAP, `step` = L + 1. -/
theorem witness_AccessToMissingBitOrSlotStops :
    ((st .resample [] [] 8 0 0).cfg.memSize ≤ (st .resample [] [] 8 0 0).addr ∧
      (st .resample [] [] 8 0 0).cfg.undoMode = .resample) ∧
    ((st .trace [] [] 8 0 15).cfg.memSize ≤ (st .trace [] [] 8 0 15).addr ∧
      (st .trace [] [] 8 0 15).cfg.undoMode = .trace ∧
      (st .trace [] [] 8 0 15).step < (st .trace [] [] 8 0 15).cfg.progCap) ∧
    ((st .trace [] [] 0 0 16).cfg.undoMode = .trace ∧
      (st .trace [] [] 0 0 16).cfg.progCap ≤ (st .trace [] [] 0 0 16).step ∧
      (st .trace [] [] 0 0 16).cfg.progCap ≤ 16) ∧
    ((st .resample [5] [] 0 0 2).progLen < (st .resample [5] [] 0 0 2).step ∧
      (st .resample [5] [] 0 0 2).step = 1 + 1 ∧ (st .resample [5] [] 0 0 2).progLen ≤ 1) := by decide

/-- S1's instance at the last bit. -/
theorem witness_InvTwiceRestoresMemory :
    (st .resample [] [(2, 1), (7, 1)] 7 0 0).addr < (st .resample [] [(2, 1), (7, 1)] 7 0 0).cfg.memSize ∧
    (st .resample [] [(2, 1), (7, 1)] 7 0 0).mem.wf := by decide

/-- The four clauses at MEM_SIZE − 1, MEM_SIZE, 0 and below 0. -/
theorem witness_CountIsOneAtomicMove :
    (st .resample [] [] 5 0 0).addr + 2 < (st .resample [] [] 5 0 0).cfg.memSize ∧
    ((st .resample [] [] 5 0 0).addr < (st .resample [] [] 5 0 0).cfg.memSize ∧
      (st .resample [] [] 5 0 0).cfg.memSize ≤ (st .resample [] [] 5 0 0).addr + 3) ∧
    ((st .resample [] [] 5 1 0).store = 1 ∧ 5 ≤ (st .resample [] [] 5 1 0).addr) ∧
    ((st .resample [] [] 5 1 0).store = 1 ∧ (st .resample [] [] 5 1 0).addr < 6) := by decide

/-- `INV` then `LOAD`, and `LOAD` then `CDEC 7`, at the last bit. -/
theorem witness_NextInstructionSeesEffects :
    (st .resample [] [(7, 1)] 7 0 0).mem.wf ∧
    exec .inv (st .resample [] [(7, 1)] 7 0 0) = .next (st .resample [] [] 7 0 1) ∧
    exec .load (st .resample [] [] 7 0 1) = .next (st .resample [] [] 7 0 2) ∧
    exec .load (st .resample [] [(7, 1)] 7 0 0) = .next (st .resample [] [(7, 1)] 7 1 1) ∧
    7 ≤ (st .resample [] [(7, 1)] 7 0 0).addr := ⟨by decide, rfl, rfl, rfl, by decide⟩

/-- `n = addr` and `n = addr + 1` (V81's and V83's slots). -/
theorem witness_BackwardIncMovesAddressDownOrFaults :
    ((st .resample [0x00000007#32] [] 7 0 1).step = 0 + 1 ∧
      (st .resample [0x00000007#32] [] 7 0 1).prog[0]? = some 0x00000007#32 ∧ decode 0x00000007#32 = .inc 7 ∧
      7 ≤ (st .resample [0x00000007#32] [] 7 0 1).addr) ∧
    ((st .resample [0x00000008#32] [] 7 0 1).step = 0 + 1 ∧
      (st .resample [0x00000008#32] [] 7 0 1).prog[0]? = some 0x00000008#32 ∧ decode 0x00000008#32 = .inc 8 ∧
      (st .resample [0x00000008#32] [] 7 0 1).addr < 8) := by decide

/-- A word with reserved bits, at the last bit. -/
theorem witness_BackwardInvFlipsAddressedBit :
    (st .trace [0x7FFFFFFF#32] [(7, 1)] 7 0 1).step = 0 + 1 ∧
    (st .trace [0x7FFFFFFF#32] [(7, 1)] 7 0 1).prog[0]? = some 0x7FFFFFFF#32 ∧ decode 0x7FFFFFFF#32 = .inv ∧
    (st .trace [0x7FFFFFFF#32] [(7, 1)] 7 0 1).addr < (st .trace [0x7FFFFFFF#32] [(7, 1)] 7 0 1).cfg.memSize ∧
    (st .trace [0x7FFFFFFF#32] [(7, 1)] 7 0 1).mem.wf := by decide

/-- V85 and V86, at the last bit and at slot 1. -/
theorem witness_BackwardLoadRestoresStoreByMode :
    ((st .resample [0, 0x80000000#32] [(7, 1)] 7 1 2).step = 1 + 1 ∧
      (st .resample [0, 0x80000000#32] [(7, 1)] 7 1 2).prog[1]? = some 0x80000000#32 ∧
      decode 0x80000000#32 = .load ∧ (st .resample [0, 0x80000000#32] [(7, 1)] 7 1 2).cfg.undoMode = .resample ∧
      (st .resample [0, 0x80000000#32] [(7, 1)] 7 1 2).addr <
        (st .resample [0, 0x80000000#32] [(7, 1)] 7 1 2).cfg.memSize) ∧
    ((st .trace [0, 0x80000000#32] [(7, 1)] 7 1 2).step = 1 + 1 ∧
      (st .trace [0, 0x80000000#32] [(7, 1)] 7 1 2).prog[1]? = some 0x80000000#32 ∧
      (st .trace [0, 0x80000000#32] [(7, 1)] 7 1 2).cfg.undoMode = .trace ∧
      1 < (st .trace [0, 0x80000000#32] [(7, 1)] 7 1 2).cfg.progCap) := by decide

/-- V89; `addr + n` = MEM_SIZE − 1, and V90: MEM_SIZE. -/
theorem witness_BackwardCdecMovesAddressUpIfStore :
    ((st .resample [0xC0000002#32] [] 6 0 1).step = 0 + 1 ∧
      (st .resample [0xC0000002#32] [] 6 0 1).prog[0]? = some 0xC0000002#32 ∧ decode 0xC0000002#32 = .cdec 2 ∧
      (st .resample [0xC0000002#32] [] 6 0 1).store = 0) ∧
    ((st .resample [0xC0000002#32] [] 5 1 1).store = 1 ∧
      (st .resample [0xC0000002#32] [] 5 1 1).addr + 2 < (st .resample [0xC0000002#32] [] 5 1 1).cfg.memSize) ∧
    ((st .resample [0xC0000002#32] [] 6 1 1).store = 1 ∧
      (st .resample [0xC0000002#32] [] 6 1 1).cfg.memSize ≤ (st .resample [0xC0000002#32] [] 6 1 1).addr + 2) := by
  decide

/-- P1 at its end and at its last slot. -/
theorem witness_ForwardExecutesFetchedInstruction :
    ((p1 .trace [(1, 1), (3, 1)] 5 0 8).Inv ∧ (p1 .trace [(1, 1), (3, 1)] 5 0 8).step =
      (p1 .trace [(1, 1), (3, 1)] 5 0 8).progLen) ∧
    ((p1 .trace [(1, 1), (3, 1)] 1 0 7).Inv ∧ (p1 .trace [(1, 1), (3, 1)] 1 0 7).step <
      (p1 .trace [(1, 1), (3, 1)] 1 0 7).progLen) :=
  ⟨⟨inv_of _ (by decide), by decide⟩, inv_of _ (by decide), by decide⟩

/-- P1 at its start and after its first slot. -/
theorem witness_BackwardUndoesPreviousSlot :
    ((p1 .resample [] 0 0 0).Inv ∧ (p1 .resample [] 0 0 0).step = 0) ∧
    ((p1 .resample [] 3 0 1).Inv ∧ (p1 .resample [] 3 0 1).step = 0 + 1) :=
  ⟨⟨inv_of _ (by decide), by decide⟩, inv_of _ (by decide), by decide⟩

/-- The last slot of P4. -/
theorem witness_StepRunsDecodedInstruction :
    (p4 [.forward, .run]).cmds = .forward :: [.run] ∧ (p4 [.forward, .run]).step < (p4 [.forward, .run]).progLen ∧
    ((p4 [.forward, .run]).prog[(p4 [.forward, .run]).step]?).map decode = some (.inc 3) := by decide

theorem witness_ForwardAndBackwardCommandsAnswerLast :
    ((p4 [.forward]).Inv ∧ (p4 [.forward]).cmds = .forward :: []) ∧
    ((p4 [.backward]).Inv ∧ (p4 [.backward]).cmds = .backward :: []) :=
  ⟨⟨inv_of _ (by decide), by decide⟩, inv_of _ (by decide), by decide⟩

/-- P1 done (V74), P1 from slot 0 (V73), and P4 with RUN issued. -/
theorem witness_RunIsForwardsUntilDoneOrFault :
    ((p1 .resample [] 5 0 8).Inv ∧ (p1 .resample [] 5 0 8).step = (p1 .resample [] 5 0 8).progLen) ∧
    ((p1 .resample [] 0 0 0).Inv ∧ (p1 .resample [] 0 0 0).step < (p1 .resample [] 0 0 0).progLen) ∧
    ((p4 [.run]).Inv ∧ (p4 [.run]).cmds = .run :: []) :=
  ⟨⟨inv_of _ (by decide), by decide⟩, ⟨inv_of _ (by decide), by decide⟩, inv_of _ (by decide), by decide⟩

/-- All eight Forwards of P1. -/
theorem witness_ForwardsRunSlotsInOrder :
    forwardsOk 8 (p1 .resample [] 0 0 0) = some (p1 .resample [(1, 1), (3, 1)] 5 0 8) ∧ 0 < 8 := ⟨rfl, by decide⟩

/-- P1: slot 1 changes memory, slot 2 `store` and (TRACE) the undo trace where the old `store` is 1, slot 3 `addr`. -/
theorem witness_ForwardWritesOnlyNamedState :
    (forward (p1 .trace [] 3 0 1) = .next (p1 .trace [(3, 1)] 3 0 2) ∧ (p1 .trace [] 3 0 1).mem.wf ∧
      (p1 .trace [] 3 0 1).undo.wf ∧ Memory.read [(3, 1)] 3 ≠ (p1 .trace [] 3 0 1).mem.read 3) ∧
    (forward (p1 .trace [] 1 1 4) = .next { p1 .trace [] 1 0 5 with undo := [(4, 1)] } ∧
      (p1 .trace [] 1 1 4).mem.wf ∧ (p1 .trace [] 1 1 4).undo.wf ∧
      Memory.read [(4, 1)] 4 ≠ (p1 .trace [] 1 1 4).undo.read 4 ∧ (0 : Bit) ≠ (p1 .trace [] 1 1 4).store) ∧
    (forward (p1 .trace [(3, 1)] 3 1 3) = .next (p1 .trace [(3, 1)] 1 1 4) ∧ (p1 .trace [(3, 1)] 3 1 3).mem.wf ∧
      (p1 .trace [(3, 1)] 3 1 3).undo.wf ∧ 1 ≠ (p1 .trace [(3, 1)] 3 1 3).addr) :=
  ⟨⟨rfl, by decide⟩, ⟨rfl, by decide⟩, rfl, by decide⟩

/-- P1 backward under RESAMPLE: over `INV`, over `LOAD`, over `CDEC 2`. -/
theorem witness_BackwardWritesOnlyNamedState :
    (backward (p1 .resample [(3, 1)] 3 0 2) = .next (p1 .resample [] 3 0 1) ∧
      (p1 .resample [(3, 1)] 3 0 2).mem.wf ∧ Memory.read [] 3 ≠ (p1 .resample [(3, 1)] 3 0 2).mem.read 3) ∧
    (backward (p1 .resample [(3, 1)] 1 1 5) = .next (p1 .resample [(3, 1)] 1 0 4) ∧
      (p1 .resample [(3, 1)] 1 1 5).mem.wf ∧ (0 : Bit) ≠ (p1 .resample [(3, 1)] 1 1 5).store) ∧
    (backward (p1 .resample [(3, 1)] 1 1 4) = .next (p1 .resample [(3, 1)] 3 1 3) ∧
      (p1 .resample [(3, 1)] 1 1 4).mem.wf ∧ 3 ≠ (p1 .resample [(3, 1)] 1 1 4).addr) :=
  ⟨⟨rfl, by decide⟩, ⟨rfl, by decide⟩, rfl, by decide⟩

/-- P4's faulting `INC 3` forward, and its `CDEC 1` backward. -/
theorem witness_FaultsRaisedExactlyWhenAddressLeavesRange :
    (p4 []).Inv ∧ (p4 []).prog[(p4 []).step]? = some 0x00000003#32 ∧ (p4 []).step = 3 + 1 ∧
    (p4 []).prog[3]? = some 0xC0000001#32 := ⟨inv_of _ (by decide), by decide⟩

/-- P4's fault, with FORWARD issued; and a backward fault (V90), with BACKWARD issued. -/
theorem witness_FaultChangesOnlyStatusRegisters :
    (forward (p4 [.forward]) = .next { p4 [.forward] with flt := 2, last := 2 } ∧ isFaultCode 2 = true ∧
      (p4 [.forward]).cmds = .forward :: []) ∧
    (backward { st .resample [0xC0000002#32] [] 6 1 1 with cmds := [.backward] } =
        .next { st .resample [0xC0000002#32] [] 6 1 1 with cmds := [.backward], flt := 2, last := 2 } ∧
      { st .resample [0xC0000002#32] [] 6 1 1 with cmds := [.backward] }.cmds = .backward :: []) :=
  ⟨⟨rfl, by decide⟩, rfl, by decide⟩

/-- A fault after a different first fault (V38's kind), and P4's first fault. -/
theorem witness_FirstFaultIsKeptUntilReset :
    ({ p4 [.forward] with flt := 1 }.Inv ∧
      step { p4 [.forward] with flt := 1 } = .next { p4 [] with flt := 1, last := 2, responses := [⟨2, 0⟩] } ∧
      { p4 [.forward] with flt := 1 }.cmds = .forward :: [] ∧ Command.forward ≠ .reset ∧
      (∀ ws, Command.forward ≠ .loadProgram ws) ∧ { p4 [.forward] with flt := 1 }.flt ≠ 0) ∧
    ((p4 [.forward]).Inv ∧
      step (p4 [.forward]) = .next { p4 [] with flt := 2, last := 2, responses := [⟨2, 0⟩] } ∧
      (p4 [.forward]).flt = 0) :=
  ⟨⟨inv_of _ (by decide), rfl, by decide, by decide, (fun _ h => by cases h), by decide⟩,
    inv_of _ (by decide), rfl, by decide⟩

/-- V72: P4's fault; and a backward fault (V83). -/
theorem witness_RepeatedFaultIsInert :
    (forward (p4 []) = .next { p4 [] with flt := 2, last := 2 } ∧ isFaultCode 2 = true) ∧
    (backward (st .resample [0x00000003#32] [] 1 0 1) =
      .next { st .resample [0x00000003#32] [] 1 0 1 with flt := 1, last := 1 } ∧ isFaultCode 1 = true) :=
  ⟨⟨rfl, by decide⟩, rfl, by decide⟩

/-- Three FORWARDs where P4 faults. -/
theorem witness_FixedCountAfterFaultRepeatsResponse :
    (p4 [.forward, .forward, .forward, .reset]).cmds = List.replicate (2 + 1) .forward ++ [.reset] ∧
    forward (p4 [.forward, .forward, .forward, .reset]) =
      .next { p4 [.forward, .forward, .forward, .reset] with flt := 2, last := 2 } ∧
    isFaultCode 2 = true := ⟨by decide, rfl, by decide⟩

/-- V91: P4's fault, and the Backward over slot 3. -/
theorem witness_BackwardAfterFaultUndoesLastCompleted :
    forward (p4 []) = .next { p4 [] with flt := 2, last := 2 } ∧ isFaultCode 2 = true ∧
    backward (p4 []) = .next { p4 [] with addr := 2, step := 3 } ∧ 0 < (p4 []).step :=
  ⟨rfl, by decide, rfl, by decide⟩

/-- P1 from reset. -/
theorem witness_FaultFreeRunIsComplete :
    (p1 .resample [] 0 0 0).Inv ∧ (p1 .resample [] 0 0 0).step = 0 ∧ (p1 .resample [] 0 0 0).flt = 0 ∧
    forwardsOk (p1 .resample [] 0 0 0).progLen (p1 .resample [] 0 0 0) =
      some (p1 .resample [(1, 1), (3, 1)] 5 0 8) ∧ 0 < (p1 .resample [] 0 0 0).progLen :=
  ⟨inv_of _ (by decide), by decide, by decide, rfl, by decide⟩

/-- Address 3, the last, with all bits of `v` set; and address 4 of 4. -/
theorem witness_MemWriteWritesOneBit :
    ((p4 [.memWrite 3 0xFFFFFFFF]).cmds = .memWrite 3 0xFFFFFFFF :: [] ∧ (p4 [.memWrite 3 0xFFFFFFFF]).mem.wf ∧
      (3#32).toNat < (p4 [.memWrite 3 0xFFFFFFFF]).cfg.memSize) ∧
    ((p4 [.memWrite 4 1]).cmds = .memWrite 4 1 :: [] ∧ (p4 [.memWrite 4 1]).mem.wf ∧
      (p4 [.memWrite 4 1]).cfg.memSize ≤ (4#32).toNat) := by decide

theorem witness_MemReadAnswersBit :
    ((p4 [.memRead 3]).cmds = .memRead 3 :: [] ∧ (3#32).toNat < (p4 [.memRead 3]).cfg.memSize) ∧
    ((p4 [.memRead 4]).cmds = .memRead 4 :: [] ∧ (p4 [.memRead 4]).cfg.memSize ≤ (4#32).toNat) := by decide

/-- The ends of the register map, indices 0 and 4, and the first reserved index. -/
theorem witness_ReadRegAnswersRegisterMap :
    ((p4 [.readReg 0]).Inv ∧ (p4 [.readReg 0]).cmds = .readReg 0 :: [] ∧ (0#32).toNat < 5) ∧
    ((p4 [.readReg 4]).Inv ∧ (p4 [.readReg 4]).cmds = .readReg 4 :: [] ∧ (4#32).toNat < 5) ∧
    ((p4 [.readReg 5]).Inv ∧ (p4 [.readReg 5]).cmds = .readReg 5 :: [] ∧ 5 ≤ (5#32).toNat) :=
  ⟨⟨inv_of _ (by decide), by decide⟩, ⟨inv_of _ (by decide), by decide⟩, inv_of _ (by decide), by decide⟩

theorem witness_BadArgumentChangesNothing :
    (p4 [.memWrite 4 1]).cmds = .memWrite 4 1 :: [] ∧ (p4 [.memRead 4]).cmds = .memRead 4 :: [] ∧
    (p4 []).cfg.memSize ≤ (4#32).toNat ∧ (p4 [.readReg 5]).cmds = .readReg 5 :: [] ∧ 5 ≤ (5#32).toNat ∧
    (p4 [.loadProgram (List.replicate 17 5)]).cmds = .loadProgram (List.replicate 17 5) :: [] ∧
    (p4 []).cfg.progCap < (List.replicate 17 (5 : Word)).length := by decide

theorem witness_EveryCommandReturnsOneResponse :
    (p4 [.run, .reset]).Inv ∧ (p4 [.run, .reset]).cmds = .run :: [.reset] := ⟨inv_of _ (by decide), by decide⟩

theorem witness_LaterCommandsDoNotAffectStep :
    (p4 [.forward]).cmds ≠ [] ∧
    step (p4 [.forward]) = .next { p4 [] with flt := 2, last := 2, responses := [⟨2, 0⟩] } := ⟨by decide, rfl⟩

/-- A LOAD_PROGRAM that changes the program. -/
theorem witness_ProgramStoreChangesOnlyByLoadProgram :
    step (p4 [.loadProgram [7]]) =
      .next { State.powerOn (p4 []).cfg with prog := [7], responses := [⟨0, 0⟩] } ∧ [7#32] ≠ (p4 []).prog :=
  ⟨rfl, by decide⟩

/-- Input as long as the memory, after P4's fault. -/
theorem witness_TrialOpeningWritesInput :
    [1#1, 0#1, 1#1, 1#1].length ≤ (p4 []).cfg.memSize ∧
    (p4 (.reset :: inputCommands 0 [1, 0, 1, 1] ++ [.run])).cmds =
      .reset :: inputCommands 0 [1, 0, 1, 1] ++ [.run] := by decide

/-- A `LOAD` that completes (both modes), and P4's fault. -/
theorem witness_ForwardThenBackwardRestores :
    ((p1 .resample [(3, 1)] 3 0 2).Inv ∧
      forward (p1 .resample [(3, 1)] 3 0 2) = .next (p1 .resample [(3, 1)] 3 1 3) ∧
      (p1 .resample [(3, 1)] 3 1 3).last = 0) ∧
    ((p1 .trace [(3, 1)] 1 1 4).Inv ∧
      forward (p1 .trace [(3, 1)] 1 1 4) = .next { p1 .trace [(3, 1)] 1 0 5 with undo := [(4, 1)] } ∧
      (p1 .trace [(3, 1)] 1 0 5).last = 0) ∧
    ((p4 []).Inv ∧ forward (p4 []) = .next { p4 [] with flt := 2, last := 2 } ∧ (2 : BitVec 3) ≠ 0) :=
  ⟨⟨inv_of _ (by decide), rfl, by decide⟩, ⟨inv_of _ (by decide), rfl, by decide⟩, inv_of _ (by decide), rfl,
    by decide⟩

/-- All eight Forwards of P1 under TRACE. -/
theorem witness_TraceBackwardRetracesForward :
    (p1 .trace [] 0 0 0).Inv ∧ (p1 .trace [] 0 0 0).cfg.undoMode = .trace ∧
    forwardsOk 8 (p1 .trace [] 0 0 0) = some { p1 .trace [(1, 1), (3, 1)] 5 0 8 with undo := [(4, 1)] } :=
  ⟨inv_of _ (by decide), by decide, rfl⟩

/-- The end of P1 under TRACE. -/
theorem witness_TraceBackwardNeverFaults :
    { p1 .trace [(1, 1), (3, 1)] 5 0 8 with undo := [(4, 1)] }.Inv ∧
    { p1 .trace [(1, 1), (3, 1)] 5 0 8 with undo := [(4, 1)] }.cfg.undoMode = .trace ∧
    { p1 .trace [(1, 1), (3, 1)] 5 0 8 with undo := [(4, 1)] }.Retraceable ∧
    0 < { p1 .trace [(1, 1), (3, 1)] 5 0 8 with undo := [(4, 1)] }.step :=
  ⟨inv_of _ (by decide), by decide, fun _ => by repeat' first | exact ⟨rfl, rfl⟩ | refine And.intro (by decide) ?_, by decide⟩

/-- The smallest program store the example fits, in both modes. -/
theorem witness_ResampleBackwardDiverges :
    ({ memSize := 1, progCap := 2, undoMode := .resample } : Config).memSize = 1 ∧
    2 ≤ ({ memSize := 1, progCap := 2, undoMode := .resample } : Config).progCap ∧
    ({ memSize := 1, progCap := 2, undoMode := .resample } : Config).undoMode = .resample ∧
    ({ memSize := 1, progCap := 2, undoMode := .trace } : Config).memSize = 1 ∧
    2 ≤ ({ memSize := 1, progCap := 2, undoMode := .trace } : Config).progCap ∧
    ({ memSize := 1, progCap := 2, undoMode := .trace } : Config).undoMode = .trace := by decide

theorem witness_ForwardDoesNotDependOnUndoMode :
    (p1 .trace [(3, 1)] 1 1 4).Inv ∧
    forward (p1 .trace [(3, 1)] 1 1 4) = .next { p1 .trace [(3, 1)] 1 0 5 with undo := [(4, 1)] } :=
  ⟨inv_of _ (by decide), rfl⟩

theorem witness_EveryStepKeepsInvariants :
    (p4 [.run]).Inv ∧ step (p4 [.run]) = .next { p4 [] with flt := 2, last := 2, responses := [⟨2, 0⟩] } :=
  ⟨inv_of _ (by decide), rfl⟩

/-- A FORWARD over slot 2 of P1 under TRACE. -/
theorem witness_EveryStepKeepsTraceHistory :
    { p1 .trace [(3, 1)] 3 0 2 with cmds := [.forward] }.Inv ∧
    { p1 .trace [(3, 1)] 3 0 2 with cmds := [.forward] }.Retraceable ∧
    step { p1 .trace [(3, 1)] 3 0 2 with cmds := [.forward] } =
      .next { p1 .trace [(3, 1)] 3 1 3 with responses := [⟨0, 0⟩] } :=
  ⟨inv_of _ (by decide), fun _ => by repeat' first | exact ⟨rfl, rfl⟩ | refine And.intro (by decide) ?_, rfl⟩

theorem witness_EveryStepAnswersNextState : (p4 [.backward]).Inv := inv_of _ (by decide)

end Sys2Proof.Tests
end

section
/-! PROOFS for 00_scope.md: building an engine, and the part `UNDO_MODE` plays in forward execution. -/

namespace Sys2Proof.Machine

/-! ### Building an engine (00_scope.md R5 and R6) -/

/-- The parameters of any configuration build its power-on engine: a `Config` carries its own bounds. -/
theorem buildEngine_of_config (c : Config) :
    buildEngine c.memSize c.progCap c.undoMode = some (State.powerOn c) :=
  dif_pos ⟨c.memSize_pos, c.memSize_le, c.progCap_le⟩

theorem buildEngine_of_out_of_bounds {memSize progCap : Nat} (mode : UndoMode)
    (h : ¬ (1 ≤ memSize ∧ memSize ≤ 4294967296 ∧ progCap ≤ 4294967295)) :
    buildEngine memSize progCap mode = none :=
  dif_neg h

/-! ### What a Forward answers in each case (the converses of `forward_next`) -/

theorem forward_of_done {s : State} (h : s.step = s.progLen) : forward s = .next (s.withLast .noopDone) := by
  have hdone : s.done = true := (State.done_iff s).2 h
  simp [forward, hdone]

theorem forward_of_fetch {s : State} {w : Word} (hk : s.step < s.progLen) (hw : s.fetch s.step = some w) :
    forward s = exec (decode w) s := by
  have hdone : s.done = false := (State.done_eq_false_iff s).2 hk.ne
  simp [forward, hdone, hw]

/-! ### The engine rebuilt with RESAMPLE

The sequencer's own writes commute with rebuilding: none of them reads the mode or the trace. -/

section
variable (s : State)

theorem State.rebuiltResample_withLast (r : Result) :
    (s.withLast r).rebuiltResample = s.rebuiltResample.withLast r := rfl
theorem State.rebuiltResample_completeAt (k : Nat) :
    (s.completeAt k).rebuiltResample = s.rebuiltResample.completeAt k := rfl
theorem State.rebuiltResample_takeAddressFault (f : AddressFault) :
    (s.takeAddressFault f).rebuiltResample = s.rebuiltResample.takeAddressFault f := rfl

end

/-- An instruction that completes does so in the rebuilt engine, with the same writes. Only `LOAD` under TRACE differs:
rebuilt, it samples the same bit and its write to the trace is gone (40_forward.md R84). -/
theorem Completes.rebuiltResample {s u : State} {i : Instr} (h : Completes s i u) :
    Completes s.rebuiltResample i u.rebuiltResample := by
  cases h with
  | inc n h => exact .inc n h
  | inv h => exact .inv h
  | loadResample _ h => exact .loadResample rfl h
  | loadTrace _ _ h => exact .loadResample rfl h
  | cdec n hs h => exact .cdec n hs h
  | cdecGated n hs => exact .cdecGated n hs

/-- The two forward fault conditions read `addr`, `store` and MEM_SIZE only (60_exceptions.md R141). -/
theorem Raises.rebuiltResample {s : State} {i : Instr} {f : AddressFault} (h : Raises s i f) :
    Raises s.rebuiltResample i f := by
  cases h with
  | inc n h => exact .inc n h
  | cdec n hs h => exact .cdec n hs h

/-- Rebuilding commutes with a Forward that answers, in every state: the commuting square of 00_scope.md R7. -/
theorem forward_rebuiltResample {s t : State} (h : forward s = .next t) :
    forward s.rebuiltResample = .next t.rebuiltResample := by
  rcases forward_next h with ⟨hdone, rfl⟩ | ⟨w, i, hk, hw, rfl, hexec⟩
  · rw [State.rebuiltResample_withLast]
    exact forward_of_done hdone
  · have hfetch : forward s.rebuiltResample = exec (decode w) s.rebuiltResample := forward_of_fetch hk hw
    rcases hexec with ⟨u, hu, rfl⟩ | ⟨f, hf, rfl⟩
    · rw [hfetch, State.rebuiltResample_completeAt]
      exact exec_of_completes hu.rebuiltResample
    · rw [hfetch, State.rebuiltResample_takeAddressFault]
      exact exec_of_raises hf.rebuiltResample

end Sys2Proof.Machine

namespace Sys2Proof.Proofs

open Sys2Proof.Machine

/-- Settles O55: the invariants are not needed, since a Forward that answers has already passed the bounds that only
TRACE checks. -/
theorem forwardDoesNotDependOnUndoMode : Obligations.ForwardDoesNotDependOnUndoMode :=
  fun _ _ _ h => forward_rebuiltResample h

/-- Settles O10: parameters within the bounds make a `Config`, and no others build. -/
theorem engineBuiltExactlyWithinBounds : Obligations.EngineBuiltExactlyWithinBounds := by
  intro memSize progCap mode
  constructor
  · rintro ⟨hpos, hmem, hprog⟩
    have hbuild := buildEngine_of_config ⟨memSize, progCap, mode, hpos, hmem, hprog⟩
    exact ⟨_, rfl, rfl, rfl, hbuild⟩
  · exact buildEngine_of_out_of_bounds mode

end Sys2Proof.Proofs
end

section
/-! PROOFS for 10_state.md: the invariants of section 3 (R34), from power-on and through every step, and the fault latch
of section 2 (R27). -/

namespace Sys2Proof.Machine

/-! ### The invariants under each update of the state (R34) -/

theorem Result.code_le_five (r : Result) : r.code.toNat ≤ 5 := by
  cases r <;> decide

/-- `Reset()` establishes the invariants whatever the registers and bits held: what it keeps is only the program's
length and the responses. -/
theorem State.resetEngine_inv {s : State} (hL : s.progLen ≤ s.cfg.progCap)
    (hr : ∀ r ∈ s.responses, r.result.toNat ≤ 5) : s.resetEngine.Inv where
  addr_lt := s.cfg.memSize_pos
  step_le := Nat.zero_le _
  progLen_le := hL
  flt_ne := by simp
  last_le := by simp
  mem_wf := Memory.wf_nil
  mem_within := by simp
  undo_wf := Memory.wf_nil
  undo_within := by simp
  undo_resample _ := rfl
  responses_le := hr

/-- The power-on state is its own reset (70_reset_and_hazards.md R161, R162). -/
theorem State.powerOn_resetEngine (c : Config) : (State.powerOn c).resetEngine = State.powerOn c := rfl

theorem State.powerOn_inv (c : Config) : (State.powerOn c).Inv := by
  rw [← State.powerOn_resetEngine]
  exact State.resetEngine_inv (by simp) (by simp)

theorem State.powerOn_retraceable (c : Config) : (State.powerOn c).Retraceable :=
  fun _ => (retraces_zero_iff ..).2 ⟨rfl, rfl⟩

section
variable {s : State} (hi : s.Inv)
include hi

theorem State.Inv.withAddr {a : Nat} (ha : a < s.cfg.memSize) : (s.withAddr a).Inv :=
  { hi with addr_lt := ha }

theorem State.Inv.withStore (b : Bit) : (s.withStore b).Inv :=
  { hi with }

theorem State.Inv.writeMem {a : Nat} (ha : a < s.cfg.memSize) (v : Bit) : (s.writeMem a v).Inv :=
  { hi with
    mem_wf := Memory.write_wf hi.mem_wf a v
    mem_within := Memory.write_within hi.mem_within ha v }

theorem State.Inv.writeUndo (hm : s.cfg.undoMode = .trace) {k : Nat} (hk : k < s.cfg.progCap) (b : Bit) :
    (s.writeUndo k b).Inv :=
  { hi with
    undo_wf := Memory.write_wf hi.undo_wf k b
    undo_within := Memory.write_within hi.undo_within hk b
    undo_resample := fun hres => by simp [hm] at hres }

theorem State.Inv.withLast {r : Result} (hr : r.code.toNat ≤ 4) : (s.withLast r).Inv :=
  { hi with last_le := hr }

theorem State.Inv.completeAt {k : Nat} (hk : k ≤ s.progLen) : (s.completeAt k).Inv :=
  { hi with
    step_le := hk
    last_le := by simp }

theorem State.Inv.takeAddressFault (f : AddressFault) : (s.takeAddressFault f).Inv :=
  { hi with
    flt_ne := by
      rw [State.takeAddressFault_flt]
      split
      · exact f.code_ne_three
      · exact hi.flt_ne
    last_le := by rcases f.result_code_cases with h | h <;> simp [h] }

theorem State.Inv.answer (rest : List Command) {r : Response} (hr : r.result.toNat ≤ 5) : (s.answer rest r).Inv :=
  { hi with responses_le := List.forall_mem_cons.2 ⟨hr, hi.responses_le⟩ }

/-! ### The invariants under each instruction, its undo and the sequencers -/

theorem Completes.keeps_inv {u : State} {i : Instr} (h : Completes s i u) : u.Inv := by
  cases h with
  | inc n h => exact hi.withAddr h
  | inv h => exact hi.writeMem h _
  | loadResample _ _ => exact hi.withStore _
  | loadTrace hm hk _ => exact (hi.writeUndo hm hk _).withStore _
  | cdec n _ _ => exact hi.withAddr (Nat.lt_of_le_of_lt (Nat.sub_le _ _) hi.addr_lt)
  | cdecGated n _ => exact hi

theorem UndoCompletes.keeps_inv {u : State} {k : Nat} {i : Instr} (h : UndoCompletes s k i u) : u.Inv := by
  cases h with
  | inc n _ => exact hi.withAddr (Nat.lt_of_le_of_lt (Nat.sub_le _ _) hi.addr_lt)
  | inv h => exact hi.writeMem h _
  | loadResample _ _ => exact hi.withStore _
  | loadTrace _ _ => exact hi.withStore _
  | cdec n _ h => exact hi.withAddr h
  | cdecGated n _ => exact hi

theorem forward_inv {t : State} (h : forward s = .next t) : t.Inv := by
  rcases forward_next h with ⟨-, rfl⟩ | ⟨_, i, hk, -, -, ⟨u, hu, rfl⟩ | ⟨f, -, rfl⟩⟩
  · exact hi.withLast (by decide)
  · have hL : u.progLen = s.progLen := by
      obtain ⟨-, -, -, -, hprog, -⟩ := hu.frame
      exact congrArg List.length hprog
    exact (hu.keeps_inv hi).completeAt (by omega)
  · exact hi.takeAddressFault f

theorem backward_inv {t : State} (h : backward s = .next t) : t.Inv := by
  rcases backward_next h with ⟨-, rfl⟩ | ⟨k, _, i, hk, -, -, ⟨u, hu, rfl⟩ | ⟨f, -, rfl⟩⟩
  · exact hi.withLast (by decide)
  · have hL : u.progLen = s.progLen := by
      obtain ⟨-, -, -, -, -, hprog, -⟩ := hu.frame
      exact congrArg List.length hprog
    have hstep := hi.step_le
    exact (hu.keeps_inv hi).completeAt (by omega)
  · exact hi.takeAddressFault f

theorem run_inv {t : State} (h : run s = .next t) : t.Inv :=
  run_induction (R := fun s t => s.Inv → t.Inv) (fun _ _ _ hst htu hs => htu (hst hs))
    (fun _ _ hf hs => forward_inv hs hf) h hi

/-! ### The invariants under each command and each step -/

/-- The response of FORWARD, BACKWARD and RUN carries `LAST`, which is a step result. -/
theorem State.Inv.last_le_five : s.last.toNat ≤ 5 :=
  Nat.le_succ_of_le hi.last_le

theorem performCommand_inv {c : Command} {u : State} {r : Response} (h : performCommand c s = .next (u, r)) :
    u.Inv ∧ r.result.toNat ≤ 5 := by
  rcases performCommand_next h with ⟨-, rfl, rfl⟩ | ⟨-, hu, rfl⟩ | ⟨-, hu, rfl⟩ | ⟨-, hu, rfl⟩ |
    ⟨a, v, -, hwrite⟩ | ⟨a, -, rfl, hread⟩ | ⟨i, -, rfl, hreg⟩ | ⟨ws, -, hload⟩
  · exact ⟨State.resetEngine_inv hi.progLen_le hi.responses_le, Result.code_le_five _⟩
  · have hu' := forward_inv hi hu
    exact ⟨hu', hu'.last_le_five⟩
  · have hu' := backward_inv hi hu
    exact ⟨hu', hu'.last_le_five⟩
  · have hu' := run_inv hi hu
    exact ⟨hu', hu'.last_le_five⟩
  · rcases hwrite with ⟨-, rfl, rfl⟩ | ⟨ha, rfl, rfl⟩
    · exact ⟨hi, Result.code_le_five _⟩
    · exact ⟨hi.writeMem ha _, Result.code_le_five _⟩
  · rcases hread with ⟨-, rfl⟩ | ⟨-, rfl⟩ <;> exact ⟨hi, Result.code_le_five _⟩
  · rcases hreg with ⟨-, rfl⟩ | ⟨v, -, rfl⟩ <;> exact ⟨hi, Result.code_le_five _⟩
  · rcases hload with ⟨-, rfl, rfl⟩ | ⟨hlen, rfl, rfl⟩
    · exact ⟨hi, Result.code_le_five _⟩
    · exact ⟨State.resetEngine_inv hlen hi.responses_le, Result.code_le_five _⟩

theorem step_inv {t : State} (h : step s = .next t) : t.Inv := by
  rcases step_next h with ⟨-, rfl⟩ | ⟨c, rest, u, r, -, hp, rfl⟩
  · exact hi
  · obtain ⟨hu, hr⟩ := performCommand_inv hi hp
    exact hu.answer rest hr

end

/-! ### RUN as Forwards that answer OK and one last Forward (45_host_interface.md R125) -/

theorem forwardsOk_succ_iff (n : Nat) (s u : State) :
    forwardsOk (n + 1) s = some u ↔ ∃ t, forward s = .next t ∧ t.last = 0 ∧ forwardsOk n t = some u := by
  cases h : forward s <;> simp [forwardsOk, h]

theorem run_next {s t : State} (h : run s = .next t) :
    ∃ n u, forwardsOk n s = some u ∧ forward u = .next t := by
  have loop : ∀ fuel s, runLoop fuel s = .next t → ∃ n u, forwardsOk n s = some u ∧ forward u = .next t := by
    intro fuel
    induction fuel with
    | zero => intro s h; cases h
    | succ fuel ih =>
      intro s h
      unfold runLoop at h
      split at h
      · rename_i v hv
        split at h
        · rename_i hgo
          have hlast : v.last = 0 := by
            simp only [Bool.and_eq_true, beq_iff_eq, Result.code_ok] at hgo
            exact hgo.1
          obtain ⟨n, u, hn, hu⟩ := ih v h
          exact ⟨n + 1, u, (forwardsOk_succ_iff n s u).2 ⟨v, hv, hlast, hn⟩, hu⟩
        · obtain rfl : v = t := by simpa using h
          exact ⟨0, s, rfl, hv⟩
      · cases h
      · cases h
  unfold run at h
  split at h
  · rename_i hdone
    exact ⟨0, s, rfl, (forward_of_done ((State.done_iff s).1 hdone)).trans h⟩
  · exact loop _ s h

/-! ### The fault latch (R27) -/

/-- An addressing fault has one number, in `FLT` and in `LAST` (60_exceptions.md R140, R143). -/
theorem AddressFault.code_toNat (f : AddressFault) : f.code.toNat = f.result.code.toNat := by
  cases f <;> rfl

/-- From `s` to `t` the latch is kept, or it was clear and takes the code that `LAST` takes. -/
def LatchesFirstFault (s t : State) : Prop :=
  t.flt = s.flt ∨ (s.flt = 0 ∧ t.flt.toNat = t.last.toNat)

theorem State.takeAddressFault_latchesFirstFault (s : State) (f : AddressFault) :
    LatchesFirstFault s (s.takeAddressFault f) := by
  by_cases hflt : s.flt = 0
  · exact .inr ⟨hflt, by simp [hflt, f.code_toNat]⟩
  · exact .inl (if_neg hflt)

/-- A result of OK says that the latch was not touched: no addressing fault has the number 0. -/
theorem LatchesFirstFault.flt_of_last_ok {s t : State} (h : LatchesFirstFault s t) (hlast : t.last = 0) :
    t.flt = s.flt := by
  rcases h with hkept | ⟨hzero, hcode⟩
  · exact hkept
  · have hclear : t.flt = 0 := BitVec.eq_of_toNat_eq (by rw [hcode, hlast]; rfl)
    exact hclear.trans hzero.symm

theorem forward_latchesFirstFault {s t : State} (h : forward s = .next t) : LatchesFirstFault s t := by
  rcases forward_next h with ⟨-, rfl⟩ | ⟨_, i, -, -, -, ⟨u, hu, rfl⟩ | ⟨f, -, rfl⟩⟩
  · exact .inl rfl
  · obtain ⟨-, -, hflt, -⟩ := hu.frame
    exact .inl hflt
  · exact s.takeAddressFault_latchesFirstFault f

theorem backward_latchesFirstFault {s t : State} (h : backward s = .next t) : LatchesFirstFault s t := by
  rcases backward_next h with ⟨-, rfl⟩ | ⟨k, _, i, -, -, -, ⟨u, hu, rfl⟩ | ⟨f, -, rfl⟩⟩
  · exact .inl rfl
  · obtain ⟨-, -, hflt, -⟩ := hu.frame
    exact .inl hflt
  · exact s.takeAddressFault_latchesFirstFault f

theorem forwardsOk_flt {n : Nat} {s u : State} (h : forwardsOk n s = some u) : u.flt = s.flt := by
  induction n generalizing s with
  | zero =>
    obtain rfl : s = u := by simpa [forwardsOk] using h
    rfl
  | succ n ih =>
    obtain ⟨t, ht, hlast, hn⟩ := (forwardsOk_succ_iff n s u).1 h
    exact (ih hn).trans ((forward_latchesFirstFault ht).flt_of_last_ok hlast)

/-- RUN stops at its first fault, so only its last Forward can touch the latch. -/
theorem run_latchesFirstFault {s t : State} (h : run s = .next t) : LatchesFirstFault s t := by
  obtain ⟨n, u, hn, hu⟩ := run_next h
  have hlast := forward_latchesFirstFault hu
  rwa [LatchesFirstFault, forwardsOk_flt hn] at hlast

/-- Only a reset clears the latch, and only RESET and LOAD_PROGRAM reset. -/
theorem performCommand_flt {c : Command} {s u : State} {r : Response} (h : performCommand c s = .next (u, r)) :
    (u.flt = 0 ∧ (c = .reset ∨ ∃ ws, c = .loadProgram ws)) ∨ LatchesFirstFault s u := by
  rcases performCommand_next h with ⟨hc, rfl, -⟩ | ⟨-, hu, -⟩ | ⟨-, hu, -⟩ | ⟨-, hu, -⟩ |
    ⟨a, v, -, hwrite⟩ | ⟨a, -, rfl, -⟩ | ⟨i, -, rfl, -⟩ | ⟨ws, hc, hload⟩
  · exact .inl ⟨rfl, .inl hc⟩
  · exact .inr (forward_latchesFirstFault hu)
  · exact .inr (backward_latchesFirstFault hu)
  · exact .inr (run_latchesFirstFault hu)
  · rcases hwrite with ⟨-, rfl, -⟩ | ⟨-, rfl, -⟩ <;> exact .inr (.inl rfl)
  · exact .inr (.inl rfl)
  · exact .inr (.inl rfl)
  · rcases hload with ⟨-, rfl, -⟩ | ⟨-, rfl, -⟩
    · exact .inr (.inl rfl)
    · exact .inl ⟨rfl, .inr ⟨ws, hc⟩⟩

/-- The same of a step, by the command it performs. -/
theorem step_flt {s t : State} (h : step s = .next t) :
    (t.flt = 0 ∧ ∃ c rest, s.cmds = c :: rest ∧ (c = .reset ∨ ∃ ws, c = .loadProgram ws)) ∨
      LatchesFirstFault s t := by
  rcases step_next h with ⟨-, rfl⟩ | ⟨c, rest, u, r, hcmds, hp, rfl⟩
  · exact .inr (.inl rfl)
  · rcases performCommand_flt hp with ⟨hflt, hc⟩ | hlatch
    · exact .inl ⟨hflt, c, rest, hcmds, hc⟩
    · exact .inr hlatch

end Sys2Proof.Machine

namespace Sys2Proof.Proofs

open Sys2Proof.Machine

/-- Settles O56: at power-on every register and bit is 0 and no slot of the program has been executed. -/
theorem powerOnSatisfiesInvariants : Obligations.PowerOnSatisfiesInvariants :=
  ⟨fun c => ⟨State.powerOn_inv c, State.powerOn_retraceable c⟩, State.powerOn_inv Config.default⟩

/-- Settles O57: every update a command makes keeps the invariants. -/
theorem everyStepKeepsInvariants : Obligations.EveryStepKeepsInvariants :=
  fun _ _ hi h => step_inv hi h

/-- Settles O37: the invariants are not needed, since no update but a reset overwrites a latch that is set. -/
theorem firstFaultIsKeptUntilReset : Obligations.FirstFaultIsKeptUntilReset := by
  intro s t _ h
  rcases step_flt h with ⟨hclear, c, rest, hcmds, hc⟩ | hkept | ⟨hzero, hlast⟩
  · refine ⟨fun c' rest' hcmds' hreset hload _ => ?_, fun _ hne => absurd hclear hne⟩
    obtain ⟨rfl, -⟩ := List.cons.inj (hcmds.symm.trans hcmds')
    rcases hc with rfl | ⟨ws, rfl⟩
    · exact absurd rfl hreset
    · exact absurd rfl (hload ws)
  · exact ⟨fun _ _ _ _ _ _ => hkept, fun hz hne => absurd (hkept.trans hz) hne⟩
  · exact ⟨fun _ _ _ _ _ hne => absurd hzero hne, fun _ _ => hlast⟩

end Sys2Proof.Proofs
end

section
/-! PROOFS for 20_memory.md: what can change the program store and the parameters (R51, 10_state.md section 1). -/

namespace Sys2Proof.Machine

/-! ### The program store and the parameters under the sequencers, each command and each step -/

/-- From `s` to `t` the parameters and the program store are kept. -/
def KeepsProgram (s t : State) : Prop :=
  t.cfg = s.cfg ∧ t.prog = s.prog

theorem KeepsProgram.trans {s t u : State} (hst : KeepsProgram s t) (htu : KeepsProgram t u) : KeepsProgram s u :=
  ⟨htu.1.trans hst.1, htu.2.trans hst.2⟩

theorem forward_keepsProgram {s t : State} (h : forward s = .next t) : KeepsProgram s t := by
  rcases forward_next h with ⟨-, rfl⟩ | ⟨_, i, -, -, -, ⟨u, hu, rfl⟩ | ⟨f, -, rfl⟩⟩
  · exact ⟨rfl, rfl⟩
  · obtain ⟨hcfg, -, -, -, hprog, -⟩ := hu.frame
    exact ⟨hcfg, hprog⟩
  · exact ⟨rfl, rfl⟩

theorem backward_keepsProgram {s t : State} (h : backward s = .next t) : KeepsProgram s t := by
  rcases backward_next h with ⟨-, rfl⟩ | ⟨k, _, i, -, -, -, ⟨u, hu, rfl⟩ | ⟨f, -, rfl⟩⟩
  · exact ⟨rfl, rfl⟩
  · obtain ⟨hcfg, -, -, -, -, hprog, -⟩ := hu.frame
    exact ⟨hcfg, hprog⟩
  · exact ⟨rfl, rfl⟩

theorem run_keepsProgram {s t : State} (h : run s = .next t) : KeepsProgram s t :=
  run_induction (R := KeepsProgram) (fun _ _ _ => .trans) (fun _ _ => forward_keepsProgram) h

/-- The one command that replaces the program resets the engine with it (45_host_interface.md R129). -/
theorem performCommand_prog {c : Command} {s u : State} {r : Response} (h : performCommand c s = .next (u, r)) :
    KeepsProgram s u ∨
      ∃ ws, c = .loadProgram ws ∧ ws.length ≤ s.cfg.progCap ∧ u = (s.withProgram ws).resetEngine := by
  rcases performCommand_next h with ⟨-, rfl, -⟩ | ⟨-, hu, -⟩ | ⟨-, hu, -⟩ | ⟨-, hu, -⟩ |
    ⟨a, v, -, hwrite⟩ | ⟨a, -, rfl, -⟩ | ⟨i, -, rfl, -⟩ | ⟨ws, hc, hload⟩
  · exact .inl ⟨rfl, rfl⟩
  · exact .inl (forward_keepsProgram hu)
  · exact .inl (backward_keepsProgram hu)
  · exact .inl (run_keepsProgram hu)
  · rcases hwrite with ⟨-, rfl, -⟩ | ⟨-, rfl, -⟩ <;> exact .inl ⟨rfl, rfl⟩
  · exact .inl ⟨rfl, rfl⟩
  · exact .inl ⟨rfl, rfl⟩
  · rcases hload with ⟨-, rfl, -⟩ | ⟨hlen, hu, -⟩
    · exact .inl ⟨rfl, rfl⟩
    · exact .inr ⟨ws, hc, hlen, hu⟩

/-- The same of a step, by the command it performs. -/
theorem step_prog {s t : State} (h : step s = .next t) :
    KeepsProgram s t ∨
      ∃ ws rest r, s.cmds = .loadProgram ws :: rest ∧ ws.length ≤ s.cfg.progCap ∧
        t = (s.withProgram ws).resetEngine.answer rest r := by
  rcases step_next h with ⟨-, rfl⟩ | ⟨c, rest, u, r, hcmds, hp, rfl⟩
  · exact .inl ⟨rfl, rfl⟩
  · rcases performCommand_prog hp with ⟨hcfg, hprog⟩ | ⟨ws, rfl, hlen, rfl⟩
    · exact .inl ⟨hcfg, hprog⟩
    · exact .inr ⟨ws, rest, r, hcmds, hlen, rfl⟩

end Sys2Proof.Machine

namespace Sys2Proof.Proofs

open Sys2Proof.Machine

/-- Settles O48: the LOAD_PROGRAM that fits is the one step that can leave another program, and it leaves the reset
state of the engine. -/
theorem programStoreChangesOnlyByLoadProgram : Obligations.ProgramStoreChangesOnlyByLoadProgram := by
  intro s t h
  rcases step_prog h with ⟨hcfg, hprog⟩ | ⟨ws, rest, r, hcmds, hlen, rfl⟩
  · exact ⟨hcfg, fun hne => absurd hprog hne⟩
  · exact ⟨rfl, fun _ =>
      ⟨ws, rest, hcmds, hlen, rfl, Memory.read_nil, rfl, rfl, rfl, rfl, rfl, Memory.read_nil⟩⟩

end Sys2Proof.Proofs
end

section
/-! PROOFS for 30_encoding.md: the decoder and the encoder (sections 1 and 3), and the program text (section 2). -/

namespace Sys2Proof

/-! ### The two fields of a word (R60) -/

@[simp] theorem opField_packWord (op : BitVec 2) (cnt : BitVec 30) : opField (packWord op cnt) = op :=
  BitVec.extractLsb'_append_eq_left

@[simp] theorem cntField_packWord (op : BitVec 2) (cnt : BitVec 30) : cntField (packWord op cnt) = cnt :=
  BitVec.extractLsb'_append_eq_right

theorem packWord_fields (w : Word) : packWord (opField w) (cntField w) = w :=
  BitVec.extractLsb'_append_extractLsb'

theorem cntField_toNat (w : Word) : (cntField w).toNat = w.toNat % 2 ^ 30 := by
  simp [cntField]

theorem opField_toNat (w : Word) : (opField w).toNat = w.toNat / 2 ^ 30 := by
  have h := Laws.packWord_div (opField w) (cntField w)
  rwa [packWord_fields, eq_comm] at h

theorem opField_eq_of_div {w : Word} {op : BitVec 2} (h : w.toNat / 2 ^ 30 = op.toNat) : opField w = op :=
  BitVec.eq_of_toNat_eq ((opField_toNat w).trans h)

theorem opField_cases (w : Word) :
    opField w = 0b00#2 ∨ opField w = 0b01#2 ∨ opField w = 0b10#2 ∨ opField w = 0b11#2 := by
  have h : ∀ op : BitVec 2, op = 0b00#2 ∨ op = 0b01#2 ∨ op = 0b10#2 ∨ op = 0b11#2 := by decide
  exact h (opField w)

/-! ### The decoder, by opcode (R71) -/

section
variable {w : Word}

theorem decode_of_inc (h : opField w = 0b00#2) : decode w = .inc (cntField w).toNat := by
  simp [decode, h]

theorem decode_of_inv (h : opField w = 0b01#2) : decode w = .inv := by
  simp [decode, h]

theorem decode_of_load (h : opField w = 0b10#2) : decode w = .load := by
  simp [decode, h]

theorem decode_of_cdec (h : opField w = 0b11#2) : decode w = .cdec (cntField w).toNat := by
  simp [decode, h]

end

/-! ### The count (R62) -/

theorem countInRange_iff (n : Nat) : countInRange n = true ↔ n < 2 ^ 30 := decide_eq_true_iff

theorem countInRange_toNat (cnt : BitVec 30) : countInRange cnt.toNat = true :=
  (countInRange_iff _).2 cnt.isLt

/-- The 30-bit field holds a count in range as it is. -/
theorem toNat_ofNat_of_countInRange {n : Nat} (h : countInRange n = true) : (BitVec.ofNat 30 n).toNat = n :=
  (BitVec.toNat_ofNat n 30).trans (Nat.mod_eq_of_lt ((countInRange_iff n).1 h))

theorem decode_wellFormed (w : Word) : (decode w).wellFormed = true := by
  rcases opField_cases w with h | h | h | h
  · rw [decode_of_inc h]
    exact countInRange_toNat _
  · rw [decode_of_inv h]
    rfl
  · rw [decode_of_load h]
    rfl
  · rw [decode_of_cdec h]
    exact countInRange_toNat _

/-! ### The decoder and the encoder undo each other -/

theorem decode_encode {i : Instr} (hi : i.wellFormed = true) : decode (encode i) = i := by
  cases i with
  | inc n =>
    calc decode (encode (.inc n))
      _ = .inc (cntField (encode (.inc n))).toNat := decode_of_inc (opField_packWord ..)
      _ = .inc (BitVec.ofNat 30 n).toNat := by rw [encode, cntField_packWord, countOf]
      _ = .inc n := by rw [toNat_ofNat_of_countInRange hi]
  | inv => exact decode_of_inv (opField_packWord ..)
  | load => exact decode_of_load (opField_packWord ..)
  | cdec n =>
    calc decode (encode (.cdec n))
      _ = .cdec (cntField (encode (.cdec n))).toNat := decode_of_cdec (opField_packWord ..)
      _ = .cdec (BitVec.ofNat 30 n).toNat := by rw [encode, cntField_packWord, countOf]
      _ = .cdec n := by rw [toNat_ofNat_of_countInRange hi]

theorem encode_inc_toNat (cnt : BitVec 30) : encode (.inc cnt.toNat) = packWord 0b00#2 cnt := by
  simp [encode, opcodeOf, countOf]

theorem encode_cdec_toNat (cnt : BitVec 30) : encode (.cdec cnt.toNat) = packWord 0b11#2 cnt := by
  simp [encode, opcodeOf, countOf]

theorem encode_decode_of_inc {w : Word} (h : opField w = 0b00#2) : encode (decode w) = w := by
  rw [decode_of_inc h, encode_inc_toNat, ← h, packWord_fields]

theorem encode_decode_of_cdec {w : Word} (h : opField w = 0b11#2) : encode (decode w) = w := by
  rw [decode_of_cdec h, encode_cdec_toNat, ← h, packWord_fields]

end Sys2Proof

namespace Sys2Proof.Machine

/-! ### Splitting a text into lines and a line into tokens (R66) -/

/-- The model splits a text as the library splits a list. -/
theorem splitText_eq_splitOnP (p : Char → Bool) (t : Text) : splitText p t = t.splitOnP p := by
  induction t with
  | nil => rfl
  | cons c cs ih =>
    rw [splitText, List.splitOnP_cons_eq_if_modifyHead, ih]
    cases h : cs.splitOnP p with
    | nil => exact absurd h (List.splitOnP_ne_nil p cs)
    | cons t ts => rfl

theorem textLines_of_no_newline {l : Text} (hl : ∀ c ∈ l, isNewline c = false) : textLines l = [l] := by
  rw [textLines, splitText_eq_splitOnP, List.splitOnP_eq_singleton hl]

theorem textLines_append_newline {l : Text} (hl : ∀ c ∈ l, isNewline c = false) (t : Text) :
    textLines (l ++ '\n' :: t) = l :: textLines t := by
  rw [textLines, textLines, splitText_eq_splitOnP, splitText_eq_splitOnP,
    List.splitOnP_append_cons_of_forall_mem hl '\n' rfl]

theorem textLines_newlines_append (k : Nat) (t : Text) :
    textLines (List.replicate k '\n' ++ t) = List.replicate k [] ++ textLines t := by
  induction k with
  | zero => rfl
  | succ k ih =>
    have h := textLines_append_newline (l := []) (by simp) (List.replicate k '\n' ++ t)
    rw [ih] at h
    exact h

/-- A token as it may stand in a text: one or more characters, none of them a blank or an LF. -/
structure IsToken (t : Text) : Prop where
  ne_nil : t ≠ []
  no_blank : ∀ c ∈ t, isBlank c = false
  no_newline : ∀ c ∈ t, isNewline c = false

theorem isToken_of_forall {t : Text} (hne : t ≠ []) (h : ∀ c ∈ t, isBlank c = false ∧ isNewline c = false) :
    IsToken t :=
  ⟨hne, fun c hc => (h c hc).1, fun c hc => (h c hc).2⟩

theorem lineTokens_nil : lineTokens [] = [] := rfl

theorem lineTokens_token {t : Text} (ht : IsToken t) : lineTokens t = [t] := by
  rw [lineTokens, splitText_eq_splitOnP, List.splitOnP_eq_singleton ht.no_blank]
  simp [ht.ne_nil]

theorem lineTokens_token_append {t : Text} (ht : IsToken t) (l : Text) :
    lineTokens (t ++ ' ' :: l) = t :: lineTokens l := by
  rw [lineTokens, lineTokens, splitText_eq_splitOnP, splitText_eq_splitOnP,
    List.splitOnP_append_cons_of_forall_mem ht.no_blank ' ' rfl]
  simp [ht.ne_nil]

/-- A blank between two pieces of a line keeps it one line. -/
theorem no_newline_append_blank {l m : Text} (hl : ∀ c ∈ l, isNewline c = false)
    (hm : ∀ c ∈ m, isNewline c = false) :
    ∀ c ∈ l ++ ' ' :: m, isNewline c = false :=
  List.forall_mem_append.2 ⟨hl, List.forall_mem_cons.2 ⟨rfl, hm⟩⟩

/-! ### Tokens: the mnemonics, the decimals and the header's label -/

theorem isToken_mnemonicText (i : Instr) : IsToken (mnemonicText i) := by
  apply isToken_of_forall
  · cases i <;> simp [mnemonicText]
  · cases i <;> simp [mnemonicText, isBlank, isNewline]

theorem isDigitChar_eq_isDigit (c : Char) : isDigitChar c = c.isDigit := rfl

theorem isDigitChar_of_mem_toDigits {n : Nat} {c : Char} (hc : c ∈ Nat.toDigits 10 n) : isDigitChar c = true :=
  (isDigitChar_eq_isDigit c).trans (Nat.isDigit_of_mem_toDigits (by decide) (by decide) hc)

/-- A digit is no whitespace: the whitespace characters are below `0`. -/
theorem no_space_of_isDigitChar {c : Char} (hc : isDigitChar c = true) : isBlank c = false ∧ isNewline c = false := by
  have hle : 48 ≤ c.toNat := by
    simp only [isDigitChar, Bool.and_eq_true, decide_eq_true_iff] at hc
    exact hc.1
  have hne : ∀ d : Char, d.toNat < 48 → c ≠ d := by
    rintro d hd rfl
    omega
  simp [isBlank, isNewline, hne]

theorem isToken_toDigits (n : Nat) : IsToken (Nat.toDigits 10 n) :=
  isToken_of_forall Nat.toDigits_ne_nil fun _ hc => no_space_of_isDigitChar (isDigitChar_of_mem_toDigits hc)

/-- A label without whitespace, the empty one too, makes a token with its colon (R69; log entry 14). -/
theorem isToken_label {label : Text} (h : ∀ c ∈ label, isBlank c = false ∧ isNewline c = false) :
    IsToken (label ++ [':']) :=
  isToken_of_forall (by simp) (List.forall_mem_append.2 ⟨h, by simp [isBlank, isNewline]⟩)

/-! ### Decimals and counts (R62, R66) -/

/-- The model reads a decimal as the library reads the digits of a number. -/
theorem decimalValue_eq_ofDigitChars (t : Text) : decimalValue t = Nat.ofDigitChars 10 t 0 := rfl

theorem decimalValue_toDigits (n : Nat) : decimalValue (Nat.toDigits 10 n) = n := by
  rw [decimalValue_eq_ofDigitChars, Nat.ofDigitChars_ten_toDigits]

theorem decimal?_toDigits (n : Nat) : decimal? (Nat.toDigits 10 n) = some n := by
  have hdigits : (Nat.toDigits 10 n).all isDigitChar = true :=
    List.all_eq_true.2 fun _ => isDigitChar_of_mem_toDigits
  simp [decimal?, hdigits, decimalValue_toDigits, Nat.toDigits_ne_nil]

theorem count?_toDigits {n : Nat} (hn : countInRange n = true) : count? (Nat.toDigits 10 n) = some n := by
  simp [count?, decimal?_toDigits, hn]

/-- What is no count: a token that is not all digits, or one whose value does not fit the field (R67). -/
theorem count?_eq_none {t : Text} (h : (¬ ∀ c ∈ t, isDigitChar c = true) ∨ 2 ^ 30 ≤ decimalValue t) :
    count? t = none := by
  rcases h with hdigits | hvalue
  · have hall : t.all isDigitChar = false := by
      rwa [Bool.eq_false_iff, ne_eq, List.all_eq_true]
    simp [count?, decimal?, hall]
  · have hrange : countInRange (decimalValue t) = false := decide_eq_false (Nat.not_lt.2 hvalue)
    by_cases hdecimal : (!t.isEmpty && t.all isDigitChar) = true
    · simp [count?, decimal?, hdecimal, hrange]
    · simp [count?, decimal?, hdecimal]

/-! ### One line's tokens (R66, R67) -/

section
variable (rest : List Text)

theorem assembleTokens_inc (n : Nat) : assembleTokens (mnemonicText (.inc n) :: rest) = countOperand .inc rest := rfl
theorem assembleTokens_cdec (n : Nat) : assembleTokens (mnemonicText (.cdec n) :: rest) = countOperand .cdec rest := rfl
theorem assembleTokens_inv : assembleTokens (mnemonicText .inv :: rest) = noOperand .inv rest := rfl
theorem assembleTokens_load : assembleTokens (mnemonicText .load :: rest) = noOperand .load rest := rfl

theorem assembleTokens_unknown {m : Text} (h : ∀ i, m ≠ mnemonicText i) :
    assembleTokens (m :: rest) = .error m := by
  simp [assembleTokens, h]

end

/-- The first token of a line that assembles is a mnemonic. -/
theorem exists_mnemonic_of_assembleTokens_ok {m : Text} {rest : List Text} {r : Option Instr}
    (h : assembleTokens (m :: rest) = .ok r) : ∃ i, m = mnemonicText i := by
  by_contra hm
  rw [assembleTokens_unknown rest (not_exists.1 hm)] at h
  cases h

section
variable (f : Nat → Instr)

theorem countOperand_count {t : Text} {n : Nat} (ht : count? t = some n) :
    countOperand f [t] = .ok (some (f n)) := by
  simp [countOperand, ht]

theorem countOperand_extra {t : Text} {n : Nat} (ht : count? t = some n) (extra : Text) (rest : List Text) :
    countOperand f (t :: extra :: rest) = .error extra := by
  simp [countOperand, ht]

theorem countOperand_bad {t : Text} (ht : count? t = none) (rest : List Text) :
    countOperand f (t :: rest) = .error t := by
  simp [countOperand, ht]

end

/-! ### The lines of a program (R66, R68) -/

section
variable {l : Text} (n : Nat) (ls : List Text)

theorem assembleLines_blank (hl : lineTokens l = []) : assembleLines n (l :: ls) = assembleLines (n + 1) ls := by
  rw [assembleLines, hl]
  rfl

theorem assembleLines_error {t : Text} (hl : assembleTokens (lineTokens l) = .error t) :
    assembleLines n (l :: ls) = .error { token := t, line := n } := by
  rw [assembleLines, hl]

theorem assembleLines_instr {i : Instr} {ws : List Word} (hl : assembleTokens (lineTokens l) = .ok (some i))
    (hls : assembleLines (n + 1) ls = .ok ws) : assembleLines n (l :: ls) = .ok (encode i :: ws) := by
  rw [assembleLines, hl]
  simp [hls]

theorem assembleLines_blanks (k : Nat) : assembleLines n (List.replicate k [] ++ ls) = assembleLines (n + k) ls := by
  induction k generalizing n with
  | zero => rfl
  | succ k ih =>
    rw [List.replicate_succ, List.cons_append, assembleLines_blank n _ lineTokens_nil, ih, Nat.add_right_comm,
      Nat.add_assoc]

end

/-! ### The header and the whole text (R69) -/

/-- A line that assembles is no header: a mnemonic does not end in a colon. -/
theorem headerSize?_of_assembleTokens_ok {l : Text} {r : Option Instr} (h : assembleTokens (lineTokens l) = .ok r) :
    headerSize? l = none := by
  rw [headerSize?]
  split
  · rename_i label size htokens
    rw [htokens] at h
    obtain ⟨i, rfl⟩ := exists_mnemonic_of_assembleTokens_ok h
    exact if_neg (by cases i <;> simp [mnemonicText])
  · rfl

theorem headerSize?_label {label : Text} (h : ∀ c ∈ label, isBlank c = false ∧ isNewline c = false) (size : Nat) :
    headerSize? ((label ++ [':']) ++ ' ' :: Nat.toDigits 10 size) = some size := by
  simp only [headerSize?, lineTokens_token_append (isToken_label h), lineTokens_token (isToken_toDigits size)]
  simp [decimal?_toDigits]

/-- A first line that is the whole text, or reads as no header, is an instruction line or blank. -/
theorem assemble_of_no_header {t l : Text} {ls : List Text} (ht : textLines t = l :: ls)
    (hl : ls = [] ∨ headerSize? l = none) : assemble t = assembleBody none 0 (l :: ls) := by
  rw [assemble, ht]
  cases ls with
  | nil => rfl
  | cons second rest =>
    have hheader : headerSize? l = none := hl.resolve_left (List.cons_ne_nil _ _)
    simp [hheader]

theorem assemble_of_header {t l : Text} {ls : List Text} {m : Nat} (ht : textLines t = l :: ls) (hls : ls ≠ [])
    (hl : headerSize? l = some m) : assemble t = assembleBody (some m) 1 ls := by
  rw [assemble, ht]
  cases ls with
  | nil => exact absurd rfl hls
  | cons second rest => simp [hl]

theorem assembleBody_ok {n : Nat} {ls : List Text} {ws : List Word} (h : assembleLines n ls = .ok ws)
    (memSize : Option Nat) : assembleBody memSize n ls = .ok { memSize := memSize, words := ws } := by
  rw [assembleBody, h]

theorem assembleBody_error {n : Nat} {ls : List Text} {e : ParseError} (h : assembleLines n ls = .error e)
    (memSize : Option Nat) : assembleBody memSize n ls = .error e := by
  rw [assembleBody, h]

/-- A text of one line fails with its line's offending token, on line 0. -/
theorem assemble_single_line_error {l t : Text} (hl : ∀ c ∈ l, isNewline c = false)
    (ht : assembleTokens (lineTokens l) = .error t) : assemble l = .error { token := t, line := 0 } := by
  rw [assemble_of_no_header (textLines_of_no_newline hl) (.inl rfl)]
  exact assembleBody_error (assembleLines_error 0 [] ht) none

/-! ### A mnemonic and what follows it (R66, R67) -/

theorem lineTokens_mnemonic_append (i : Instr) (l : Text) :
    lineTokens (mnemonicText i ++ ' ' :: l) = mnemonicText i :: lineTokens l :=
  lineTokens_token_append (isToken_mnemonicText i) l

/-- A text that is one mnemonic and its operand tokens fails as those tokens do. -/
theorem assemble_operand_error (i : Instr) {operands t : Text} (hl : ∀ c ∈ operands, isNewline c = false)
    (ht : assembleTokens (mnemonicText i :: lineTokens operands) = .error t) :
    assemble (mnemonicText i ++ ' ' :: operands) = .error { token := t, line := 0 } := by
  refine assemble_single_line_error (no_newline_append_blank (isToken_mnemonicText i).no_newline hl) ?_
  rwa [lineTokens_mnemonic_append]

/-! ### A program written as text (R66, R68) -/

theorem instrText_no_newline (i : Instr) : ∀ c ∈ instrText i, isNewline c = false := by
  have hm := (isToken_mnemonicText i).no_newline
  cases i with
  | inc n => exact no_newline_append_blank hm (isToken_toDigits n).no_newline
  | inv => exact hm
  | load => exact hm
  | cdec n => exact no_newline_append_blank hm (isToken_toDigits n).no_newline

/-- The line of a well-formed instruction is read as that instruction. -/
theorem assembleTokens_instrText {i : Instr} (hi : i.wellFormed = true) :
    assembleTokens (lineTokens (instrText i)) = .ok (some i) := by
  cases i with
  | inc n =>
    rw [instrText, lineTokens_mnemonic_append, lineTokens_token (isToken_toDigits n), assembleTokens_inc]
    exact countOperand_count .inc (count?_toDigits hi)
  | inv =>
    rw [instrText, lineTokens_token (isToken_mnemonicText .inv), assembleTokens_inv]
    rfl
  | load =>
    rw [instrText, lineTokens_token (isToken_mnemonicText .load), assembleTokens_load]
    rfl
  | cdec n =>
    rw [instrText, lineTokens_mnemonic_append, lineTokens_token (isToken_toDigits n), assembleTokens_cdec]
    exact countOperand_count .cdec (count?_toDigits hi)

/-- The lines of a program's text: one for each instruction, and the empty line after the last LF. -/
theorem textLines_programText (p : List Instr) : textLines (programText p) = p.map instrText ++ [[]] := by
  induction p with
  | nil => rfl
  | cons i p ih =>
    have htext : programText (i :: p) = instrText i ++ '\n' :: programText p := by simp [programText]
    rw [htext, textLines_append_newline (instrText_no_newline i), ih, List.map_cons, List.cons_append]

theorem assembleLines_programText {p : List Instr} (hp : ∀ i ∈ p, i.wellFormed = true) (n : Nat) :
    assembleLines n (p.map instrText ++ [[]]) = .ok (p.map encode) := by
  induction p generalizing n with
  | nil => rfl
  | cons i p ih =>
    obtain ⟨hi, hp⟩ := List.forall_mem_cons.1 hp
    exact assembleLines_instr n _ (assembleTokens_instrText hi) (ih hp (n + 1))

/-- No program's own text starts with a header. -/
theorem assemble_programText {p : List Instr} (hp : ∀ i ∈ p, i.wellFormed = true) :
    assemble (programText p) = .ok { memSize := none, words := p.map encode } := by
  have hbody := assembleBody_ok (assembleLines_programText hp 0) none
  have hlines := textLines_programText p
  cases p with
  | nil => rwa [assemble_of_no_header hlines (.inl rfl)]
  | cons i p =>
    have hi : i.wellFormed = true := hp i List.mem_cons_self
    rwa [assemble_of_no_header hlines (.inr (headerSize?_of_assembleTokens_ok (assembleTokens_instrText hi)))]

theorem assemble_header_programText {header : Text} {size : Nat} {p : List Instr}
    (hline : ∀ c ∈ header, isNewline c = false) (hheader : headerSize? header = some size)
    (hp : ∀ i ∈ p, i.wellFormed = true) :
    assemble (header ++ '\n' :: programText p) = .ok { memSize := some size, words := p.map encode } := by
  have hlines : textLines (header ++ '\n' :: programText p) = header :: (p.map instrText ++ [[]]) := by
    rw [textLines_append_newline hline, textLines_programText]
  rw [assemble_of_header hlines (by simp) hheader]
  exact assembleBody_ok (assembleLines_programText hp 1) (some size)

end Sys2Proof.Machine

namespace Sys2Proof.Proofs

open Sys2Proof.Machine

/-- Settles O4: the fields of a packed word are those it was packed from, and a well-formed count survives its field. -/
theorem decodeEncodeGivesInstruction : Obligations.DecodeEncodeGivesInstruction :=
  fun _ => decode_encode

/-- Settles O6: every line of the text is read as its instruction, and the first is no header. -/
theorem programTextAssembles : Obligations.ProgramTextAssembles :=
  fun _ => assemble_programText

/-- Settles O2: the quotient and the remainder by 2^30 are the two fields. -/
theorem decodeByTopTwoBits : Obligations.DecodeByTopTwoBits := by
  intro w
  rw [← cntField_toNat]
  exact ⟨fun h => decode_of_inc (opField_eq_of_div h), fun h => decode_of_inv (opField_eq_of_div h),
    fun h => decode_of_load (opField_eq_of_div h), fun h => decode_of_cdec (opField_eq_of_div h)⟩

/-- Settles O3: a decoded count is the value of a 30-bit field. -/
theorem decodedInstructionIsWellFormed : Obligations.DecodedInstructionIsWellFormed :=
  decode_wellFormed

/-- Settles O5: a word of `INC` or `CDEC` is packed from its two fields; `INV` and `LOAD` have one encoding each. -/
theorem encodeDecodeClearsReservedBits : Obligations.EncodeDecodeClearsReservedBits := by
  intro w
  refine ⟨?_, fun h => ?_, fun h => ?_⟩
  · rintro (h | h)
    · exact encode_decode_of_inc (opField_eq_of_div h)
    · exact encode_decode_of_cdec (opField_eq_of_div h)
  · rw [decode_of_inv (opField_eq_of_div h)]
    rfl
  · rw [decode_of_load (opField_eq_of_div h)]
    rfl

/-- Settles O7: the label with its colon is one token, also when the label is empty. -/
theorem headerLineAsksForMemorySize : Obligations.HeaderLineAsksForMemorySize := by
  intro label size p hlabel hp
  have hline := no_newline_append_blank (isToken_label hlabel).no_newline (isToken_toDigits size).no_newline
  have h := assemble_header_programText hline (headerSize?_label hlabel size) hp
  simpa using h

/-- Settles O8: the blank lines are skipped and counted, and the token's own line fails. -/
theorem unknownMnemonicIsReported : Obligations.UnknownMnemonicIsReported := by
  intro blanks token hne hchars hinc hinv hload hcdec
  have htok : IsToken token := isToken_of_forall hne hchars
  have hunknown : ∀ i, token ≠ mnemonicText i := by
    rintro (_ | _ | _ | _)
    exacts [hinc, hinv, hload, hcdec]
  have hbad : assembleTokens (lineTokens token) = .error token := by
    rw [lineTokens_token htok]
    exact assembleTokens_unknown [] hunknown
  have hlines : textLines (List.replicate blanks '\n' ++ token) = List.replicate blanks [] ++ [token] := by
    rw [textLines_newlines_append, textLines_of_no_newline htok.no_newline]
  have hbody : assembleBody none 0 (List.replicate blanks [] ++ [token]) =
      .error { token := token, line := blanks } := by
    refine assembleBody_error ?_ none
    rw [assembleLines_blanks, Nat.zero_add]
    exact assembleLines_error blanks [] hbad
  cases blanks with
  | zero => rwa [assemble_of_no_header hlines (.inl rfl)]
  | succ k => rwa [assemble_of_no_header hlines (.inr rfl)]

/-- Settles O9: the mnemonic is read, and the token that does not belong is the first its operands reject. -/
theorem badOperandIsReported : Obligations.BadOperandIsReported := by
  intro token hne hchars
  have htok : IsToken token := isToken_of_forall hne hchars
  have htokens : lineTokens token = [token] := lineTokens_token htok
  have htwo : IsToken ['2'] := isToken_toDigits 2
  have hline : ∀ c ∈ ['2'] ++ ' ' :: token, isNewline c = false :=
    no_newline_append_blank htwo.no_newline htok.no_newline
  have hnone : ∀ i, noOperand i (lineTokens token) = .error token := fun i => by
    rw [htokens, noOperand]
  have hextra : ∀ f, countOperand f (lineTokens (['2'] ++ ' ' :: token)) = .error token := fun f => by
    rw [lineTokens_token_append htwo, htokens]
    exact countOperand_extra f (count?_toDigits (n := 2) rfl) token []
  refine ⟨assemble_operand_error .inv htok.no_newline (hnone .inv),
    assemble_operand_error .load htok.no_newline (hnone .load),
    assemble_operand_error (.inc 0) hline (hextra .inc), assemble_operand_error (.cdec 0) hline (hextra .cdec),
    fun hbad => ?_⟩
  have hcount : ∀ f, countOperand f (lineTokens token) = .error token := fun f => by
    rw [htokens]
    exact countOperand_bad f (count?_eq_none hbad) []
  exact ⟨assemble_operand_error (.inc 0) htok.no_newline (hcount .inc),
    assemble_operand_error (.cdec 0) htok.no_newline (hcount .cdec)⟩

/-- Settles O1: the two top bits of each word pick its arm of the decoder. -/
theorem opcodeMapWordsDecode : Obligations.OpcodeMapWordsDecode :=
  ⟨decode_of_inc rfl, decode_of_inv rfl, decode_of_load rfl, decode_of_cdec rfl⟩

end Sys2Proof.Proofs
end

section
/-! PROOFS for 40_forward.md: the four instructions and their encodings (section 2), the forward sequencer (sections 1
and 3), and the atomic count (R90). -/

namespace Sys2Proof

/-! ### The words and texts of the instructions (30_encoding.md R60, R62) -/

/-- A number read as a word is packed from its quotient and its remainder by 2^30. -/
theorem ofNat_eq_packWord (op : BitVec 2) {n cnt : Nat} (hcnt : cnt < 2 ^ 30) (hn : n = op.toNat * 2 ^ 30 + cnt) :
    BitVec.ofNat 32 n = packWord op (BitVec.ofNat 30 cnt) := by
  have hop : op.toNat < 4 := op.isLt
  apply BitVec.eq_of_toNat_eq
  rw [packWord, BitVec.toNat_append, BitVec.toNat_ofNat, BitVec.toNat_ofNat, Nat.mod_eq_of_lt hcnt,
    ← Nat.shiftLeft_add_eq_or_of_lt hcnt, Nat.shiftLeft_eq, hn]
  omega

section
variable {cnt : Nat} (h : cnt < 2 ^ 30)
include h

theorem decode_ofNat_inc : decode (BitVec.ofNat 32 cnt) = .inc cnt := by
  rw [ofNat_eq_packWord 0b00#2 h (by simp)]
  exact decode_encode (i := .inc cnt) ((countInRange_iff cnt).2 h)

theorem decode_ofNat_inv : decode (BitVec.ofNat 32 (0x40000000 + cnt)) = .inv := by
  rw [ofNat_eq_packWord 0b01#2 h (n := 0x40000000 + cnt) rfl]
  exact decode_of_inv (opField_packWord ..)

theorem decode_ofNat_load : decode (BitVec.ofNat 32 (0x80000000 + cnt)) = .load := by
  rw [ofNat_eq_packWord 0b10#2 h (n := 0x80000000 + cnt) rfl]
  exact decode_of_load (opField_packWord ..)

theorem decode_ofNat_cdec : decode (BitVec.ofNat 32 (0xC0000000 + cnt)) = .cdec cnt := by
  rw [ofNat_eq_packWord 0b11#2 h (n := 0xC0000000 + cnt) rfl]
  exact decode_encode (i := .cdec cnt) ((countInRange_iff cnt).2 h)

end

end Sys2Proof

namespace Sys2Proof.Machine

/-- A text that is one mnemonic is the program of the instruction that the mnemonic alone stands for. -/
theorem assemble_mnemonic (i : Instr) {j : Instr} (h : assembleTokens [mnemonicText i] = .ok (some j)) :
    assemble (mnemonicText i) = .ok { memSize := none, words := [encode j] } := by
  have htok := isToken_mnemonicText i
  have hline : assembleTokens (lineTokens (mnemonicText i)) = .ok (some j) := by rwa [lineTokens_token htok]
  rw [assemble_of_no_header (textLines_of_no_newline htok.no_newline) (.inl rfl)]
  exact assembleBody_ok (assembleLines_instr 0 [] hline rfl) none

/-! ### Flipping a bit (R83) -/

/-- The array with one bit flipped, as `INV` leaves it: `Completes.inv` writes exactly this. -/
def Memory.flip (m : Memory) (a : Nat) : Memory := m.write a (~~~(m.read a))

theorem Memory.flip_wf {m : Memory} (hm : m.wf) (a : Nat) : (m.flip a).wf := Memory.write_wf hm a _

theorem Memory.read_flip {m : Memory} (hm : m.wf) (a b : Nat) :
    (m.flip a).read b = if b = a then ~~~(m.read b) else m.read b := by
  rw [Memory.flip, Memory.read_write hm]
  split
  · rename_i hb
    rw [hb]
  · rfl

/-- Canonical arrays with equal bits are equal data, so flipping twice gives the array itself. -/
theorem Memory.flip_flip {m : Memory} (hm : m.wf) (a : Nat) : (m.flip a).flip a = m := by
  refine Memory.eq_of_read_eq (Memory.flip_wf (Memory.flip_wf hm a) a) hm fun b => ?_
  rw [Memory.read_flip (Memory.flip_wf hm a), Memory.read_flip hm]
  split
  · exact BitVec.not_not
  · rfl

/-! ### What a completed instruction writes (R86) -/

section
variable {s u : State} {i : Instr} (h : Completes s i u)
include h

theorem Completes.mem_cases : u.mem = s.mem ∨ (i = .inv ∧ u.mem = s.mem.flip s.addr) := by
  cases h with
  | inv _ => exact .inr ⟨rfl, rfl⟩
  | _ => exact .inl rfl

theorem Completes.undo_cases :
    u.undo = s.undo ∨ (i = .load ∧ s.cfg.undoMode = .trace ∧ u.undo = s.undo.write s.step s.store) := by
  cases h with
  | loadTrace hm _ _ => exact .inr ⟨rfl, hm, rfl⟩
  | _ => exact .inl rfl

theorem Completes.store_cases : u.store = s.store ∨ i = .load := by
  cases h with
  | loadResample _ _ => exact .inr rfl
  | loadTrace _ _ _ => exact .inr rfl
  | _ => exact .inl rfl

theorem Completes.addr_cases : u.addr = s.addr ∨ ∃ n, i = .inc n ∨ i = .cdec n := by
  cases h with
  | inc n _ => exact .inr ⟨n, .inl rfl⟩
  | cdec n _ _ => exact .inr ⟨n, .inr rfl⟩
  | _ => exact .inl rfl

theorem Completes.of_read_mem_ne (hm : s.mem.wf) {a : Nat} (hne : u.mem.read a ≠ s.mem.read a) :
    a = s.addr ∧ i = .inv := by
  rcases h.mem_cases with heq | ⟨hi, heq⟩
  · exact absurd (by rw [heq]) hne
  · rw [heq] at hne
    exact ⟨Memory.eq_of_read_write_ne hm hne, hi⟩

theorem Completes.of_read_undo_ne (hu : s.undo.wf) {k : Nat} (hne : u.undo.read k ≠ s.undo.read k) :
    k = s.step ∧ i = .load ∧ s.cfg.undoMode = .trace := by
  rcases h.undo_cases with heq | ⟨hi, hm, heq⟩
  · exact absurd (by rw [heq]) hne
  · rw [heq] at hne
    exact ⟨Memory.eq_of_read_write_ne hu hne, hi, hm⟩

end

/-! ### What `exec` answers (R80) -/

/-- A next state of `exec` is a completion or an addressing fault. -/
theorem exec_next {i : Instr} {s t : State} (h : exec i s = .next t) :
    (∃ u, Completes s i u ∧ t = u.completeAt (s.step + 1)) ∨ (∃ f, Raises s i f ∧ t = s.takeAddressFault f) := by
  rcases exec_cases i s with ⟨u, hu, e⟩ | ⟨f, hf, e⟩ | ⟨-, r, e⟩
  · rw [e] at h
    exact .inl ⟨u, hu, by simpa using h.symm⟩
  · rw [e] at h
    exact .inr ⟨f, hf, by simpa using h.symm⟩
  · rw [e] at h
    cases h

/-- Where the addressed bit and the trace slot exist, `exec` answers. -/
theorem exec_answers (i : Instr) {s : State} (ha : s.addr < s.cfg.memSize) (hk : s.step < s.cfg.progCap) :
    ∃ t, exec i s = .next t := by
  rcases exec_cases i s with ⟨u, -, e⟩ | ⟨f, -, e⟩ | ⟨hmissing, -⟩
  · exact ⟨_, e⟩
  · exact ⟨_, e⟩
  · omega

theorem exec_mem_ne {i : Instr} {s t : State} (h : exec i s = .next t) (hne : t.mem ≠ s.mem) : i = .inv := by
  rcases exec_next h with ⟨u, hu, rfl⟩ | ⟨f, -, rfl⟩
  · rcases hu.mem_cases with heq | ⟨hi, -⟩
    · exact absurd heq hne
    · exact hi
  · exact absurd rfl hne

theorem exec_store_ne {i : Instr} {s t : State} (h : exec i s = .next t) (hne : t.store ≠ s.store) : i = .load := by
  rcases exec_next h with ⟨u, hu, rfl⟩ | ⟨f, -, rfl⟩
  · exact hu.store_cases.resolve_left hne
  · exact absurd rfl hne

/-! ### Completions and faults as whole states (R82, R83, R85) -/

section
variable {n : Nat} {s : State}

theorem exec_inc_of_lt (h : s.addr + n < s.cfg.memSize) :
    exec (.inc n) s = .next { s with addr := s.addr + n, step := s.step + 1, last := 0 } :=
  exec_of_completes (.inc n h)

theorem exec_inc_of_le (h : s.cfg.memSize ≤ s.addr + n) :
    exec (.inc n) s = .next { s with flt := if s.flt = 0 then 2 else s.flt, last := 2 } :=
  exec_of_raises (.inc n h)

theorem exec_inv_of_lt (h : s.addr < s.cfg.memSize) :
    exec .inv s = .next { s with mem := s.mem.flip s.addr, step := s.step + 1, last := 0 } :=
  exec_of_completes (.inv h)

theorem exec_cdec_gated (hs : s.store = 0) : exec (.cdec n) s = .next { s with step := s.step + 1, last := 0 } :=
  exec_of_completes (.cdecGated n (by simp [hs]))

theorem exec_cdec_of_le (hs : s.store = 1) (h : n ≤ s.addr) :
    exec (.cdec n) s = .next { s with addr := s.addr - n, step := s.step + 1, last := 0 } :=
  exec_of_completes (.cdec n hs h)

theorem exec_cdec_of_lt (hs : s.store = 1) (h : s.addr < n) :
    exec (.cdec n) s = .next { s with flt := if s.flt = 0 then 1 else s.flt, last := 1 } :=
  exec_of_raises (.cdec n hs h)

end

/-! ### A count as unit moves (R90) -/

theorem execTimes_succ_iff (n : Nat) (i : Instr) (s u : State) :
    execTimes (n + 1) i s = some u ↔ ∃ t, exec i s = .next t ∧ t.last = 0 ∧ execTimes n i t = some u := by
  cases h : exec i s <;> simp [execTimes, h]

/-- One more execution at the end, where `execTimes_succ_iff` takes the first. -/
theorem execTimes_succ_of_exec {n : Nat} {i : Instr} {s u v : State} (hn : execTimes n i s = some u)
    (hv : exec i u = .next v) (hlast : v.last = 0) : execTimes (n + 1) i s = some v := by
  induction n generalizing s with
  | zero =>
    obtain rfl : s = u := by simpa [execTimes] using hn
    exact (execTimes_succ_iff 0 i s v).2 ⟨v, hv, hlast, rfl⟩
  | succ n ih =>
    obtain ⟨t, ht, hok, hn⟩ := (execTimes_succ_iff n i s u).1 hn
    exact (execTimes_succ_iff (n + 1) i s v).2 ⟨t, ht, hok, ih hn⟩

theorem execTimes_inc_one {n : Nat} {s : State} (h : s.addr + n < s.cfg.memSize) :
    ∃ r, execTimes n (.inc 1) s = some { s with addr := s.addr + n, step := s.step + n, last := r } := by
  induction n with
  | zero => exact ⟨s.last, rfl⟩
  | succ n ih =>
    obtain ⟨r, hn⟩ := ih (by omega)
    exact ⟨0, execTimes_succ_of_exec hn (exec_inc_of_lt h) rfl⟩

theorem execTimes_cdec_one {n : Nat} {s : State} (hs : s.store = 1) (h : n ≤ s.addr) :
    ∃ r, execTimes n (.cdec 1) s = some { s with addr := s.addr - n, step := s.step + n, last := r } := by
  induction n with
  | zero => exact ⟨s.last, rfl⟩
  | succ n ih =>
    obtain ⟨r, hn⟩ := ih (by omega)
    exact ⟨0, execTimes_succ_of_exec hn (exec_cdec_of_le hs (Nat.le_sub_of_add_le' h)) rfl⟩

/-! ### Forwards that answer OK (R80, R87) -/

/-- A Forward that answers OK is not the no-op at done and no fault: it completed the fetched instruction. -/
theorem forward_ok {s t : State} (h : forward s = .next t) (hlast : t.last = 0) :
    ∃ w, s.step < s.progLen ∧ s.fetch s.step = some w ∧ exec (decode w) s = .next t ∧ t.step = s.step + 1 := by
  rcases forward_next h with ⟨-, rfl⟩ | ⟨w, i, hk, hw, rfl, ⟨u, hu, rfl⟩ | ⟨f, -, rfl⟩⟩
  · simp at hlast
  · exact ⟨w, hk, hw, exec_of_completes hu, rfl⟩
  · simp at hlast

/-- The last of the Forwards taken apart, where `forwardsOk_succ_iff` takes the first. -/
theorem forwardsOk_succ_last_iff (n : Nat) (s v : State) :
    forwardsOk (n + 1) s = some v ↔ ∃ u, forwardsOk n s = some u ∧ forward u = .next v ∧ v.last = 0 := by
  induction n generalizing s with
  | zero =>
    rw [forwardsOk_succ_iff]
    simp only [forwardsOk, Option.some.injEq, exists_eq_left', exists_eq_right_right]
  | succ n ih =>
    rw [forwardsOk_succ_iff]
    simp only [ih, forwardsOk_succ_iff n s]
    constructor
    · rintro ⟨t, ht, hok, u, hn, hu⟩
      exact ⟨u, ⟨t, ht, hok, hn⟩, hu⟩
    · rintro ⟨u, ⟨t, ht, hok, hn⟩, hu⟩
      exact ⟨t, ht, hok, u, hn, hu⟩

theorem forwardsOk_of_le {n j : Nat} {s t : State} (h : forwardsOk n s = some t) (hj : j ≤ n) :
    ∃ u, forwardsOk j s = some u := by
  induction hj using Nat.decreasingInduction generalizing t with
  | self => exact ⟨t, h⟩
  | of_succ k _ ih =>
    obtain ⟨v, hv⟩ := ih h
    obtain ⟨u, hu, -⟩ := (forwardsOk_succ_last_iff k s v).1 hv
    exact ⟨u, hu⟩

/-- `n` Forwards that answer OK move on by `n` slots of the same program. -/
theorem forwardsOk_step {n : Nat} {s t : State} (h : forwardsOk n s = some t) :
    t.step = s.step + n ∧ KeepsProgram s t := by
  induction n generalizing t with
  | zero =>
    obtain rfl : s = t := by simpa [forwardsOk] using h
    exact ⟨rfl, rfl, rfl⟩
  | succ n ih =>
    obtain ⟨u, hn, hu, hlast⟩ := (forwardsOk_succ_last_iff n s t).1 h
    obtain ⟨hstep, hprog⟩ := ih hn
    obtain ⟨_, -, -, -, hnext⟩ := forward_ok hu hlast
    exact ⟨by omega, hprog.trans (forward_keepsProgram hu)⟩

/-- The Forward after `j` others runs the word in slot `step + j`. -/
theorem forwardsOk_succ_runs_slot {j : Nat} {s v : State} (h : forwardsOk (j + 1) s = some v) :
    ∃ u w, forwardsOk j s = some u ∧ u.step = s.step + j ∧ s.prog[s.step + j]? = some w ∧
      exec (decode w) u = .next v ∧ v.last = 0 := by
  obtain ⟨u, hj, hu, hlast⟩ := (forwardsOk_succ_last_iff j s v).1 h
  obtain ⟨hstep, -, hprog⟩ := forwardsOk_step hj
  obtain ⟨w, -, hw, hexec, -⟩ := forward_ok hu hlast
  rw [State.fetch, hprog, hstep] at hw
  exact ⟨u, w, hj, hstep, hw, hexec, hlast⟩

/-! ### The word placed for the next Forward (log entry 6) -/

theorem lt_length_putWord (prog : List Word) (k : Nat) (w : Word) : k < (putWord prog k w).length := by
  simp only [putWord, List.length_set, List.length_append, List.length_replicate]
  omega

theorem getElem?_putWord (prog : List Word) (k : Nat) (w : Word) : (putWord prog k w)[k]? = some w := by
  have hk := lt_length_putWord prog k w
  rw [putWord, List.length_set] at hk
  exact List.getElem?_set_self hk

/-- The slot that `withFetchWord` fills exists and holds the word, so the next Forward runs it. -/
theorem forward_withFetchWord (s : State) (w : Word) :
    forward (s.withFetchWord 32 w.toNat) = exec (decode w) (s.withFetchWord 32 w.toNat) := by
  have hword : BitVec.ofNat 32 (w.toNat % 2 ^ 32) = w := by
    rw [Nat.mod_eq_of_lt w.isLt, BitVec.ofNat_toNat, BitVec.setWidth_eq]
  have hfetch : (s.withFetchWord 32 w.toNat).fetch s.step = some (BitVec.ofNat 32 (w.toNat % 2 ^ 32)) :=
    getElem?_putWord ..
  rw [hword] at hfetch
  exact forward_of_fetch (lt_length_putWord ..) hfetch

end Sys2Proof.Machine

namespace Sys2Proof.Proofs

open Sys2Proof.Machine

/-- Settles O16: `INV` writes the memory with the addressed bit flipped, and no other completed instruction and no
fault writes memory. -/
theorem invFlipsOnlyAddressedBit : Obligations.InvFlipsOnlyAddressedBit :=
  ⟨fun s ha hm => ⟨s.mem.flip s.addr, exec_inv_of_lt ha, Memory.flip_wf hm _, Memory.read_flip hm _⟩,
    fun _ _ _ => exec_mem_ne, fun _ => decode_ofNat_inv⟩

/-- Settles O17: `LOAD` completes in either mode, and no other completed instruction and no fault writes `store`. -/
theorem loadLatchesAddressedBit : Obligations.LoadLatchesAddressedBit := by
  refine ⟨fun s ha => ⟨fun hm => exec_of_completes (.loadResample hm ha), fun hm hk hu => ?_⟩,
    fun _ _ _ => exec_store_ne, fun _ => decode_ofNat_load⟩
  exact ⟨s.undo.write s.step s.store, exec_of_completes (.loadTrace hm hk ha), Memory.read_write hu _ _⟩

/-- Settles O20: the second `INV` flips the bit that the first flipped. -/
theorem invTwiceRestoresMemory : Obligations.InvTwiceRestoresMemory := by
  intro s ha hm
  refine ⟨_, exec_inv_of_lt ha, ?_⟩
  rw [exec_inv_of_lt, Memory.flip_flip hm]
  exact ha

/-- Settles O21: the unit moves reach every address up to MEM_SIZE − 1 (down to 0), and the count's one check fails
exactly where the last of them would. -/
theorem countIsOneAtomicMove : Obligations.CountIsOneAtomicMove := by
  intro n s
  refine ⟨fun h => ⟨exec_inc_of_lt h, ?_⟩, fun ha h => ⟨exec_inc_of_le h, ?_⟩, fun hs h => ⟨exec_cdec_of_le hs h, ?_⟩,
    fun hs h => ⟨exec_cdec_of_lt hs h, ?_⟩⟩
  · obtain ⟨r, hn⟩ := execTimes_inc_one h
    exact ⟨_, hn, rfl⟩
  · have htop : s.addr + (s.cfg.memSize - 1 - s.addr) = s.cfg.memSize - 1 := by omega
    obtain ⟨r, hn⟩ := execTimes_inc_one (n := s.cfg.memSize - 1 - s.addr) (s := s) (by omega)
    refine ⟨_, hn, htop, exec_inc_of_le ?_⟩
    change s.cfg.memSize ≤ s.addr + (s.cfg.memSize - 1 - s.addr) + 1
    omega
  · obtain ⟨r, hn⟩ := execTimes_cdec_one hs h
    exact ⟨_, hn, rfl⟩
  · have hbottom : s.addr - s.addr = 0 := Nat.sub_self _
    obtain ⟨r, hn⟩ := execTimes_cdec_one hs le_rfl
    exact ⟨_, hn, hbottom, exec_cdec_of_lt hs (by simp)⟩

/-- Settles O27: below `L` the slot holds a word, and the invariants give the bit and the trace slot it may need. -/
theorem forwardExecutesFetchedInstruction : Obligations.ForwardExecutesFetchedInstruction := by
  intro s hi
  refine ⟨forward_of_done, fun hk => ?_⟩
  obtain ⟨w, hw⟩ := fetch_lt hk
  obtain ⟨t, ht⟩ := exec_answers (decode w) hi.addr_lt (Nat.lt_of_lt_of_le hk hi.progLen_le)
  refine ⟨w, t, hw, ht, (forward_of_fetch hk hw).trans ht, ?_⟩
  rcases exec_next ht with ⟨u, hu, rfl⟩ | ⟨f, -, rfl⟩
  · obtain ⟨-, -, hflt, -⟩ := hu.frame
    exact .inl ⟨rfl, rfl, hflt⟩
  · exact .inr ⟨f, rfl⟩

/-- Settles O32: each Forward but the first starts one slot after the one before it, in the same program. -/
theorem forwardsRunSlotsInOrder : Obligations.ForwardsRunSlotsInOrder := by
  intro n s t h hn
  obtain ⟨hstep, -⟩ := forwardsOk_step h
  have runs : ∀ j, j < n → ∃ u v w, forwardsOk j s = some u ∧ u.step = s.step + j ∧ s.prog[s.step + j]? = some w ∧
      exec (decode w) u = .next v ∧ v.last = 0 ∧ forwardsOk (j + 1) s = some v := by
    intro j hj
    obtain ⟨v, hv⟩ := forwardsOk_of_le h hj
    obtain ⟨u, w, hu, hslot, hw, hexec, hlast⟩ := forwardsOk_succ_runs_slot hv
    exact ⟨u, v, w, hu, hslot, hw, hexec, hlast, hv⟩
  refine ⟨hstep, ?_, runs⟩
  obtain ⟨_, _, w, -, -, hw, -⟩ := runs (n - 1) (by omega)
  have hslot : s.step + (n - 1) < s.progLen := (List.getElem?_eq_some_iff.1 hw).1
  omega

/-- Settles O33: the no-op at done and a fault write `LAST` and `FLT` only, and each completed instruction writes its
own part of the state. -/
theorem forwardWritesOnlyNamedState : Obligations.ForwardWritesOnlyNamedState := by
  intro s t hm hu h
  rcases forward_next h with ⟨-, rfl⟩ | ⟨w, i, -, hw, hd, ⟨u, hc, rfl⟩ | ⟨f, -, rfl⟩⟩
  · simp
  · have hslot : (s.prog[s.step]?).map decode = some i := (congrArg (Option.map decode) hw).trans (congrArg some hd)
    obtain ⟨hcfg, -, -, -, hprog, hcmds, hresp⟩ := hc.frame
    rw [hslot]
    refine ⟨hcfg, hprog, hcmds, hresp, fun a hne => ?_, fun k hne => ?_, fun hne => ?_, fun hne => ?_⟩
    · obtain ⟨ha, hi⟩ := hc.of_read_mem_ne hm hne
      exact ⟨ha, congrArg some hi⟩
    · obtain ⟨hk, hi, htrace⟩ := hc.of_read_undo_ne hu hne
      exact ⟨hk, congrArg some hi, htrace⟩
    · exact congrArg some (hc.store_cases.resolve_left hne)
    · simpa using hc.addr_cases.resolve_left hne
  · simp

/-- Settles O49: the FORWARD that `withFetchWord` issues is the oldest command, and it fetches the placed word. -/
theorem fetchWordRunsNext : Obligations.FetchWordRunsNext := by
  intro s w
  have hperform : performCommand .forward (s.withFetchWord 32 w.toNat) =
      respondLast (exec (decode w) (s.withFetchWord 32 w.toNat)) := congrArg respondLast (forward_withFetchWord s w)
  rw [step_eq_processCommand, processCommand_cons (c := .forward) (rest := s.cmds) rfl, hperform]
  cases exec (decode w) (s.withFetchWord 32 w.toNat) <;> rfl

/-- Settles O15: the one check of `INC` decides between completing and OutOfMemory. -/
theorem incMovesAddressUpOrFaults : Obligations.IncMovesAddressUpOrFaults :=
  fun _ _ => ⟨exec_inc_of_lt, exec_inc_of_le, decode_ofNat_inc, assemble_mnemonic (.inc 1) rfl⟩

/-- Settles O18: `store` gates the move, and the one check of `CDEC` decides between completing and NegativeAddress. -/
theorem cdecMovesAddressDownIfStore : Obligations.CdecMovesAddressDownIfStore :=
  fun _ _ => ⟨exec_cdec_gated, exec_cdec_of_le, exec_cdec_of_lt, decode_ofNat_cdec, assemble_mnemonic (.cdec 1) rfl⟩

end Sys2Proof.Proofs
end

section
/-! PROOFS for 41_backward.md: the undo of each instruction (section 2), the backward sequencer (section 1), and forward
and backward together with what the undo trace remembers (section 3). -/

namespace Sys2Proof

/-- The two top bits of a word are the opcode of the instruction it decodes to, whatever its other bits (R60, R61). -/
theorem div_eq_opcodeOf_decode (w : Word) : w.toNat / 2 ^ 30 = (opcodeOf (decode w)).toNat := by
  rw [← opField_toNat]
  rcases opField_cases w with h | h | h | h
  · rw [decode_of_inc h, h, opcodeOf]
  · rw [decode_of_inv h, h, opcodeOf]
  · rw [decode_of_load h, h, opcodeOf]
  · rw [decode_of_cdec h, h, opcodeOf]

theorem div_of_decode {w : Word} {i : Instr} (h : decode w = i) : w.toNat / 2 ^ 30 = (opcodeOf i).toNat :=
  h ▸ div_eq_opcodeOf_decode w

end Sys2Proof

namespace Sys2Proof.Machine

/-! ### What `undo` answers (R105) -/

/-- A next state of `undo` is a completion or an addressing fault. -/
theorem undo_next {i : Instr} {k : Nat} {s t : State} (h : undo i k s = .next t) :
    (∃ u, UndoCompletes s k i u ∧ t = u.completeAt k) ∨ (∃ f, UndoRaises s i f ∧ t = s.takeAddressFault f) := by
  rcases undo_cases i k s with ⟨u, hu, e⟩ | ⟨f, hf, e⟩ | ⟨-, r, e⟩
  · rw [e] at h
    exact .inl ⟨u, hu, by simpa using h.symm⟩
  · rw [e] at h
    exact .inr ⟨f, hf, by simpa using h.symm⟩
  · rw [e] at h
    cases h

/-- Where the addressed bit and the trace slot exist, `undo` answers. -/
theorem undo_answers (i : Instr) {k : Nat} {s : State} (ha : s.addr < s.cfg.memSize) (hk : k < s.cfg.progCap) :
    ∃ t, undo i k s = .next t := by
  rcases undo_cases i k s with ⟨u, -, e⟩ | ⟨f, -, e⟩ | ⟨hmissing, -⟩
  · exact ⟨_, e⟩
  · exact ⟨_, e⟩
  · omega

/-! ### What a Backward answers in each case (the converses of `backward_next`) -/

theorem backward_of_step_zero {s : State} (h : s.step = 0) : backward s = .next (s.withLast .noopAtStart) := by
  simp [backward, h]

section
variable {s : State} {k : Nat} {w : Word} {i : Instr} (hs : s.step = k + 1) (hw : s.fetch k = some w)
include hs hw

theorem backward_of_fetch : backward s = undo (decode w) k s := by
  simp [backward, hs, hw]

theorem backward_of_completes (hd : decode w = i) {u : State} (h : UndoCompletes s k i u) :
    backward s = .next (u.completeAt k) := by
  rw [backward_of_fetch hs hw, hd]
  exact undo_of_completes h

theorem backward_of_raises (hd : decode w = i) {f : AddressFault} (h : UndoRaises s i f) :
    backward s = .next (s.takeAddressFault f) := by
  rw [backward_of_fetch hs hw, hd]
  exact undo_of_raises k h

end

/-- A program that has been run up to slot `k + 1` has a word in slot `k`, which the trace has room for. -/
theorem State.Inv.fetch_previous {s : State} (hi : s.Inv) {k : Nat} (hs : s.step = k + 1) :
    (∃ w, s.fetch k = some w) ∧ k < s.cfg.progCap := by
  have hstep := hi.step_le
  have hL := hi.progLen_le
  exact ⟨fetch_lt (by omega), by omega⟩

/-! ### What a completed undo writes (R101 to R104) -/

section
variable {s u : State} {k : Nat} {i : Instr} (h : UndoCompletes s k i u)
include h

theorem UndoCompletes.mem_cases : u.mem = s.mem ∨ (i = .inv ∧ u.mem = s.mem.flip s.addr) := by
  cases h with
  | inv _ => exact .inr ⟨rfl, rfl⟩
  | _ => exact .inl rfl

theorem UndoCompletes.store_cases : u.store = s.store ∨ i = .load := by
  cases h with
  | loadResample _ _ => exact .inr rfl
  | loadTrace _ _ => exact .inr rfl
  | _ => exact .inl rfl

theorem UndoCompletes.addr_cases : u.addr = s.addr ∨ ∃ n, i = .inc n ∨ i = .cdec n := by
  cases h with
  | inc n _ => exact .inr ⟨n, .inl rfl⟩
  | cdec n _ _ => exact .inr ⟨n, .inr rfl⟩
  | _ => exact .inl rfl

theorem UndoCompletes.of_read_mem_ne (hm : s.mem.wf) {a : Nat} (hne : u.mem.read a ≠ s.mem.read a) :
    a = s.addr ∧ i = .inv := by
  rcases h.mem_cases with heq | ⟨hi, heq⟩
  · exact absurd (by rw [heq]) hne
  · rw [heq] at hne
    exact ⟨Memory.eq_of_read_write_ne hm hne, hi⟩

end

/-! ### What a Backward reads (section 3)

Two states that agree in everything an undo reads go back through the same values. A fault in between writes nothing of
that (R107), and the trace slots that a Forward fills and its Backward leaves behind are no part of it (R109). -/

/-- `t` agrees with `s` in all that Backwards from `s` read: everything but `FLT`, `LAST`, the slots of the undo trace
at and above `step`, and the two ends of the host interface. -/
structure UndoesAlike (s t : State) : Prop where
  cfg : t.cfg = s.cfg
  mem : t.mem = s.mem
  addr : t.addr = s.addr
  store : t.store = s.store
  step : t.step = s.step
  prog : t.prog = s.prog
  undo_below : ∀ k, k < s.step → t.undo.read k = s.undo.read k

theorem UndoesAlike.trans {s t u : State} (hst : UndoesAlike s t) (htu : UndoesAlike t u) : UndoesAlike s u where
  cfg := htu.cfg.trans hst.cfg
  mem := htu.mem.trans hst.mem
  addr := htu.addr.trans hst.addr
  store := htu.store.trans hst.store
  step := htu.step.trans hst.step
  prog := htu.prog.trans hst.prog
  undo_below k hk := (htu.undo_below k (hst.step.symm ▸ hk)).trans (hst.undo_below k hk)

theorem UndoesAlike.takeAddressFault {s t : State} (h : UndoesAlike s t) (f : AddressFault) :
    UndoesAlike (s.takeAddressFault f) (t.takeAddressFault f) :=
  { h with }

theorem UndoesAlike.of_status (s : State) (flt : BitVec 2) (last : BitVec 3) :
    UndoesAlike s { s with flt := flt, last := last } :=
  ⟨rfl, rfl, rfl, rfl, rfl, rfl, fun _ _ => rfl⟩

theorem UndoRaises.of_undoesAlike {s t : State} {i : Instr} {f : AddressFault} (h : UndoRaises s i f)
    (hst : UndoesAlike s t) : UndoRaises t i f := by
  cases h with
  | inc n h => exact .inc n (by rwa [hst.addr])
  | cdec n hs h => exact .cdec n (hst.store.trans hs) (by rwa [hst.addr, hst.cfg])

theorem UndoCompletes.of_undoesAlike {s t u : State} {k : Nat} {i : Instr} (h : UndoCompletes s k i u)
    (hst : UndoesAlike s t) (hk : k < s.step) :
    ∃ v, UndoCompletes t k i v ∧ UndoesAlike (u.completeAt k) (v.completeAt k) := by
  obtain ⟨cfg, mem, addr, store, step, flt, last, undo, prog, cmds, responses⟩ := t
  obtain ⟨rfl, rfl, rfl, rfl, rfl, rfl, hundo⟩ := hst
  have hbelow : ∀ j, j < k → undo.read j = s.undo.read j := fun j hj => hundo j (hj.trans hk)
  cases h with
  | inc n h => exact ⟨_, .inc n h, rfl, rfl, rfl, rfl, rfl, rfl, hbelow⟩
  | inv h => exact ⟨_, .inv h, rfl, rfl, rfl, rfl, rfl, rfl, hbelow⟩
  | loadResample hm h => exact ⟨_, .loadResample hm h, rfl, rfl, rfl, rfl, rfl, rfl, hbelow⟩
  | loadTrace hm h => exact ⟨_, .loadTrace hm h, rfl, rfl, rfl, hundo k hk, rfl, rfl, hbelow⟩
  | cdec n hs h => exact ⟨_, .cdec n hs h, rfl, rfl, rfl, rfl, rfl, rfl, hbelow⟩
  | cdecGated n hs => exact ⟨_, .cdecGated n hs, rfl, rfl, rfl, rfl, rfl, rfl, hbelow⟩

/-- States that undo alike have Backwards that answer alike, and those leave states that undo alike. -/
theorem UndoesAlike.backward {s s' t : State} (hs : UndoesAlike s s') (h : backward s = .next t) :
    ∃ t', Machine.backward s' = .next t' ∧ UndoesAlike t t' ∧ t'.last = t.last := by
  rcases backward_next h with ⟨hzero, rfl⟩ | ⟨k, w, i, hk, hw, hd, hundo⟩
  · exact ⟨_, backward_of_step_zero (hs.step.trans hzero), { hs with }, rfl⟩
  · have hk' : s'.step = k + 1 := hs.step.trans hk
    have hw' : s'.fetch k = some w := by rw [State.fetch, hs.prog]; exact hw
    rcases hundo with ⟨u, hu, rfl⟩ | ⟨f, hf, rfl⟩
    · obtain ⟨v, hv, huv⟩ := hu.of_undoesAlike hs (by omega)
      exact ⟨_, backward_of_completes hk' hw' hd hv, huv, rfl⟩
    · exact ⟨_, backward_of_raises hk' hw' hd (hf.of_undoesAlike hs), hs.takeAddressFault f, rfl⟩

theorem backwardsOk_succ_iff (n : Nat) (s u : State) :
    backwardsOk (n + 1) s = some u ↔ ∃ t, backward s = .next t ∧ t.last = 0 ∧ backwardsOk n t = some u := by
  cases h : backward s <;> simp [backwardsOk, h]

theorem UndoesAlike.backwardsOk {n : Nat} {s s' t : State} (hs : UndoesAlike s s') (h : backwardsOk n s = some t) :
    ∃ t', Machine.backwardsOk n s' = some t' ∧ UndoesAlike t t' := by
  induction n generalizing s s' with
  | zero =>
    obtain rfl : s = t := by simpa [Machine.backwardsOk] using h
    exact ⟨s', rfl, hs⟩
  | succ n ih =>
    obtain ⟨u, hu, hlast, hn⟩ := (backwardsOk_succ_iff n s t).1 h
    obtain ⟨u', hu', huu', hlast'⟩ := hs.backward hu
    obtain ⟨t', hn', htt'⟩ := ih huu' hn
    exact ⟨t', (backwardsOk_succ_iff n s' t').2 ⟨u', hu', hlast'.trans hlast, hn'⟩, htt'⟩

/-! ### A Forward that completed can be undone (R106) -/

/-- The store latch after the instruction `i` at `s` and its undo: that of `s`, but for `LOAD` under RESAMPLE, where it
is the bit that the `LOAD` read (R103, R106). -/
def State.storeAfterUndo (s : State) (i : Instr) : Bit :=
  if i = .load ∧ s.cfg.undoMode = .resample then s.mem.read s.addr else s.store

theorem State.storeAfterUndo_of_trace {s : State} (h : s.cfg.undoMode = .trace) (i : Instr) :
    s.storeAfterUndo i = s.store := by
  simp [State.storeAfterUndo, h]

/-- The undo of an instruction that completed completes too, and leads back. The trace keeps what it held below the
instruction's slot, and in that slot holds the `store` that a `LOAD` overwrote. -/
theorem Completes.undone {s u : State} {i : Instr} (hi : s.Inv) (h : Completes s i u) :
    ∃ v, UndoCompletes (u.completeAt (s.step + 1)) s.step i v ∧
      UndoesAlike (s.withStore (s.storeAfterUndo i)) (v.completeAt s.step) := by
  cases h with
  | inc n h =>
    exact ⟨_, .inc n (Nat.le_add_left n s.addr),
      rfl, rfl, Nat.add_sub_cancel .., rfl, rfl, rfl, fun _ _ => rfl⟩
  | inv h =>
    exact ⟨_, .inv h, rfl, Memory.flip_flip hi.mem_wf s.addr, rfl, rfl, rfl, rfl, fun _ _ => rfl⟩
  | loadResample hm h =>
    exact ⟨_, .loadResample hm h, rfl, rfl, rfl, (if_pos ⟨rfl, hm⟩).symm, rfl, rfl, fun _ _ => rfl⟩
  | loadTrace hm hk h =>
    have hread := Memory.read_write hi.undo_wf s.step s.store
    refine ⟨_, .loadTrace hm hk, rfl, rfl, rfl, ?_, rfl, rfl, fun k hk => ?_⟩
    · rw [State.withStore_store, State.storeAfterUndo_of_trace hm]
      exact (hread s.step).trans (if_pos rfl)
    · exact (hread k).trans (if_neg hk.ne)
  | cdec n hs h =>
    have hback : s.addr - n + n = s.addr := Nat.sub_add_cancel h
    refine ⟨_, .cdec n hs (hback.trans_lt hi.addr_lt), rfl, rfl, hback, rfl, rfl, rfl, fun _ _ => rfl⟩
  | cdecGated n hs =>
    exact ⟨_, .cdecGated n hs, rfl, rfl, rfl, rfl, rfl, rfl, fun _ _ => rfl⟩

theorem forward_of_completes {s u : State} {w : Word} {i : Instr} (hk : s.step < s.progLen)
    (hw : s.fetch s.step = some w) (hd : decode w = i) (h : Completes s i u) :
    forward s = .next (u.completeAt (s.step + 1)) := by
  rw [forward_of_fetch hk hw, hd]
  exact exec_of_completes h

/-- A Forward that answered OK completed the fetched instruction. -/
theorem forward_completes {s t : State} (h : forward s = .next t) (hlast : t.last = 0) :
    ∃ w u, s.fetch s.step = some w ∧ Completes s (decode w) u ∧ t = u.completeAt (s.step + 1) := by
  rcases forward_next h with ⟨-, rfl⟩ | ⟨w, i, -, hw, rfl, ⟨u, hu, rfl⟩ | ⟨f, -, rfl⟩⟩
  · simp at hlast
  · exact ⟨w, u, hw, hu, rfl⟩
  · simp at hlast

theorem forward_undone {s t : State} (hi : s.Inv) (h : forward s = .next t) (hlast : t.last = 0) :
    ∃ w u, s.fetch s.step = some w ∧ UndoCompletes t s.step (decode w) u ∧ backward t = .next (u.completeAt s.step) ∧
      UndoesAlike (s.withStore (s.storeAfterUndo (decode w))) (u.completeAt s.step) := by
  obtain ⟨-, hprog⟩ := forward_keepsProgram h
  obtain ⟨w, u, hw, hu, rfl⟩ := forward_completes h hlast
  obtain ⟨v, hv, hback⟩ := hu.undone hi
  have hw' : (u.completeAt (s.step + 1)).fetch s.step = some w := by rw [State.fetch, hprog]; exact hw
  exact ⟨w, v, hw, hv, backward_of_completes rfl hw' rfl hv, hback⟩

/-- Under TRACE the pair restores `store` as well. -/
theorem forward_undone_of_trace {s t : State} (hi : s.Inv) (hm : s.cfg.undoMode = .trace) (h : forward s = .next t)
    (hlast : t.last = 0) : ∃ u, backward t = .next u ∧ u.last = 0 ∧ UndoesAlike s u := by
  obtain ⟨w, u, -, -, hback, halike⟩ := forward_undone hi h hlast
  rw [State.storeAfterUndo_of_trace hm] at halike
  exact ⟨_, hback, rfl, halike⟩

/-- A Forward that answered anything but OK wrote only `FLT` and `LAST`. -/
theorem forward_not_ok {s t : State} (h : forward s = .next t) (hlast : t.last ≠ 0) :
    t = { s with flt := t.flt, last := t.last } := by
  rcases forward_next h with ⟨-, rfl⟩ | ⟨_, i, -, -, -, ⟨u, -, rfl⟩ | ⟨f, -, rfl⟩⟩
  · rfl
  · exact absurd rfl hlast
  · rfl

theorem forward_not_ok_undoesAlike {s t : State} (h : forward s = .next t) (hlast : t.last ≠ 0) : UndoesAlike s t :=
  forward_not_ok h hlast ▸ UndoesAlike.of_status s t.flt t.last

theorem forwardsOk_inv {n : Nat} {s t : State} (hi : s.Inv) (h : forwardsOk n s = some t) : t.Inv := by
  induction n generalizing s with
  | zero =>
    obtain rfl : s = t := by simpa [forwardsOk] using h
    exact hi
  | succ n ih =>
    obtain ⟨u, hu, -, hn⟩ := (forwardsOk_succ_iff n s t).1 h
    exact ih (forward_inv hi hu) hn

/-- `n` Forwards are taken back one by one: the last one first, and then those before it, from a state that undoes like
the one they led to (R109). -/
theorem forwardsOk_undone {n : Nat} {s t : State} (hi : s.Inv) (hm : s.cfg.undoMode = .trace)
    (h : forwardsOk n s = some t) : ∃ u, backwardsOk n t = some u ∧ UndoesAlike s u := by
  induction n generalizing t with
  | zero =>
    obtain rfl : s = t := by simpa [forwardsOk] using h
    exact ⟨s, rfl, UndoesAlike.of_status s s.flt s.last⟩
  | succ n ih =>
    obtain ⟨v, hn, ht, hlast⟩ := (forwardsOk_succ_last_iff n s t).1 h
    obtain ⟨-, hcfg, -⟩ := forwardsOk_step hn
    obtain ⟨v', hv', hok, hvv'⟩ := forward_undone_of_trace (forwardsOk_inv hi hn) (by rwa [hcfg]) ht hlast
    obtain ⟨u, hu, hsu⟩ := ih hn
    obtain ⟨u', hu', huu'⟩ := hvv'.backwardsOk hu
    exact ⟨u', (backwardsOk_succ_iff n t u').2 ⟨v', hv', hok, hu'⟩, hsu.trans huu'⟩

/-! ### What the undo trace remembers (R108, R109) -/

/-- Under TRACE an undo that completes computes the exact inverse. -/
theorem UndoCompletes.undoPair {s u : State} {k : Nat} {i : Instr} (hm : s.cfg.undoMode = .trace)
    (h : UndoCompletes s k i u) :
    Machine.undoPair s.cfg.memSize i (s.undo.read k) s.addr s.store = some (u.addr, u.store) := by
  cases h with
  | inc n h => exact if_pos h
  | inv _ => rfl
  | loadResample hres _ => rw [hm] at hres; cases hres
  | loadTrace _ _ => rfl
  | cdec n hs h => exact (if_pos hs).trans (if_pos h)
  | cdecGated n hs => exact if_neg hs

/-- The converse: where the exact inverse exists, the undo completes. -/
theorem undoCompletes_of_undoPair {s : State} {k : Nat} {i : Instr} {p : Nat × Bit} (hm : s.cfg.undoMode = .trace)
    (ha : s.addr < s.cfg.memSize) (hk : k < s.cfg.progCap)
    (h : undoPair s.cfg.memSize i (s.undo.read k) s.addr s.store = some p) : ∃ u, UndoCompletes s k i u := by
  cases i with
  | inc n =>
    have hn : n ≤ s.addr := by
      by_contra hn
      simp [undoPair, hn] at h
    exact ⟨_, .inc n hn⟩
  | inv => exact ⟨_, .inv ha⟩
  | load => exact ⟨_, .loadTrace hm hk⟩
  | cdec n =>
    by_cases hs : s.store = 1
    · have hn : s.addr + n < s.cfg.memSize := by
        by_contra hn
        simp [undoPair, hs, hn] at h
      exact ⟨_, .cdec n hs hn⟩
    · exact ⟨_, .cdecGated n hs⟩

/-- States that undo alike remember the same history. -/
theorem UndoesAlike.retraceable {s t : State} (h : UndoesAlike s t) (hs : s.Retraceable) : t.Retraceable := by
  intro hm
  rw [h.cfg] at hm
  rw [h.cfg, h.prog, h.step, h.addr, h.store]
  exact retraces_congr s.step (fun k hk => (h.undo_below k hk).symm) (hs hm)

/-- One completed undo takes the last slot off the history, and no more. -/
theorem UndoCompletes.retraceable_iff {s u : State} {k : Nat} {w : Word} (h : UndoCompletes s k (decode w) u)
    (hs : s.step = k + 1) (hw : s.fetch k = some w) (ha : u.addr < s.cfg.memSize) :
    (u.completeAt k).Retraceable ↔ s.Retraceable := by
  obtain ⟨hcfg, -, -, -, hundo, hprog, -⟩ := h.frame
  have hslot (hm : s.cfg.undoMode = .trace) :
      retraces s.cfg.memSize s.prog s.undo s.step s.addr s.store ↔
        retraces s.cfg.memSize s.prog s.undo k u.addr u.store := by
    rw [hs, retraces_succ_iff hw rfl, h.undoPair hm]
    simp [ha]
  simp only [State.Retraceable, State.completeAt_cfg, State.completeAt_prog, State.completeAt_undo,
    State.completeAt_step, State.completeAt_addr, State.completeAt_store, hcfg, hundo, hprog]
  exact forall_congr' fun hm => (hslot hm).symm

theorem State.resetEngine_retraceable (s : State) : s.resetEngine.Retraceable :=
  fun _ => (retraces_zero_iff ..).2 ⟨rfl, rfl⟩

section
variable {s t : State} (hi : s.Inv) (hr : s.Retraceable)
include hi hr

/-- A completed Forward adds a slot to the history that its undo takes off again; every other Forward leaves it. -/
theorem forward_retraceable (h : forward s = .next t) : t.Retraceable := by
  by_cases hlast : t.last = 0
  · intro hm
    obtain ⟨hcfg, hprog⟩ := forward_keepsProgram h
    obtain ⟨_, -, -, -, hstep⟩ := forward_ok h hlast
    obtain ⟨w, u, hw, hu, -, halike⟩ := forward_undone hi h hlast
    rw [State.storeAfterUndo_of_trace (hcfg ▸ hm)] at halike
    have hw' : t.fetch s.step = some w := by rw [State.fetch, hprog]; exact hw
    have haddr : u.addr = s.addr := halike.addr
    have ha : u.addr < t.cfg.memSize := by rw [haddr, hcfg]; exact hi.addr_lt
    exact (hu.retraceable_iff hstep hw' ha).1 (halike.retraceable hr) hm
  · exact (forward_not_ok_undoesAlike h hlast).retraceable hr

theorem backward_retraceable (h : backward s = .next t) : t.Retraceable := by
  rcases backward_next h with ⟨-, rfl⟩ | ⟨k, w, i, hk, hw, rfl, ⟨u, hu, rfl⟩ | ⟨f, -, rfl⟩⟩
  · exact hr
  · obtain ⟨hcfg, -⟩ := hu.frame
    have ha : u.addr < s.cfg.memSize := hcfg ▸ (hu.keeps_inv hi).addr_lt
    exact (hu.retraceable_iff hk hw ha).2 hr
  · exact hr

/-- RUN's Forwards keep the history and the invariants together, for each needs both. -/
theorem run_retraceable (h : run s = .next t) : t.Retraceable :=
  (run_induction (R := fun s t => s.Inv ∧ s.Retraceable → t.Inv ∧ t.Retraceable)
    (fun _ _ _ hst htu hs => htu (hst hs))
    (fun _ _ hf hs => ⟨forward_inv hs.1 hf, forward_retraceable hs.1 hs.2 hf⟩) h ⟨hi, hr⟩).2

/-- RESET and LOAD_PROGRAM leave no history, and the host's reads and writes of memory are no part of it. -/
theorem performCommand_retraceable {c : Command} {r : Response} (h : performCommand c s = .next (t, r)) :
    t.Retraceable := by
  rcases performCommand_next h with ⟨-, rfl, -⟩ | ⟨-, ht, -⟩ | ⟨-, ht, -⟩ | ⟨-, ht, -⟩ |
    ⟨a, v, -, hwrite⟩ | ⟨a, -, rfl, -⟩ | ⟨i, -, rfl, -⟩ | ⟨ws, -, hload⟩
  · exact s.resetEngine_retraceable
  · exact forward_retraceable hi hr ht
  · exact backward_retraceable hi hr ht
  · exact run_retraceable hi hr ht
  · rcases hwrite with ⟨-, rfl, -⟩ | ⟨-, rfl, -⟩ <;> exact hr
  · exact hr
  · exact hr
  · rcases hload with ⟨-, rfl, -⟩ | ⟨-, rfl, -⟩
    · exact hr
    · exact (s.withProgram ws).resetEngine_retraceable

theorem step_retraceable (h : step s = .next t) : t.Retraceable := by
  rcases step_next h with ⟨-, rfl⟩ | ⟨c, rest, u, r, -, hp, rfl⟩
  · exact hr
  · have hu : u.Retraceable := performCommand_retraceable hi hr hp
    exact hu

/-- A history that can be retraced holds the exact inverse of its last slot, so no undo of it raises. -/
theorem backward_of_retraceable (hm : s.cfg.undoMode = .trace) {k : Nat} (hs : s.step = k + 1) :
    ∃ w u, UndoCompletes s k (decode w) u ∧ backward s = .next (u.completeAt k) := by
  obtain ⟨⟨w, hw⟩, hk⟩ := hi.fetch_previous hs
  have hslots := hr hm
  rw [hs, retraces_succ_iff hw rfl] at hslots
  obtain ⟨p, hp, -, -⟩ := hslots
  obtain ⟨u, hu⟩ := undoCompletes_of_undoPair hm hi.addr_lt hk hp
  exact ⟨w, u, hu, backward_of_completes hs hw rfl hu⟩

end

/-! ### The divergence of RESAMPLE (R110) -/

/-- The engine of R110's example: MEM[0] = 1 and the program `CDEC 1; LOAD`. -/
def divergenceStart (c : Config) : State :=
  { State.powerOn c with mem := [(0, 1)], prog := [0xC0000001#32, 0x80000000#32] }

theorem decode_divergence_cdec : decode 0xC0000001#32 = .cdec 1 := decode_of_cdec rfl

theorem decode_divergence_load : decode 0x80000000#32 = .load := decode_of_load rfl

/-- A store latch of 0 shuts the gate of `CDEC` (R85). -/
theorem bit_zero_ne_one : (0 : Bit) ≠ 1 := by decide

/-- The same engine after the program, in both modes: `CDEC` was gated by the 0 of reset, which under TRACE is the bit
that `LOAD` kept, and `LOAD` latched the 1. -/
def divergenceEnd (c : Config) : State :=
  { divergenceStart c with store := 1, step := 2 }

section
variable {c : Config}

theorem forwardsOk_divergenceStart (hcap : 2 ≤ c.progCap) :
    forwardsOk 2 (divergenceStart c) = some (divergenceEnd c) := by
  have hcdec : forward (divergenceStart c) = .next { divergenceStart c with step := 1, last := 0 } :=
    forward_of_completes Nat.two_pos rfl decode_divergence_cdec (.cdecGated 1 bit_zero_ne_one)
  have hload : forward { divergenceStart c with step := 1, last := 0 } = .next (divergenceEnd c) := by
    have haddr : 0 < c.memSize := c.memSize_pos
    cases hm : c.undoMode with
    | resample => exact forward_of_completes Nat.one_lt_two rfl decode_divergence_load (.loadResample hm haddr)
    | trace =>
      exact forward_of_completes (s := { divergenceStart c with step := 1, last := 0 }) Nat.one_lt_two rfl
        decode_divergence_load (.loadTrace hm hcap haddr)
  exact (forwardsOk_succ_iff ..).2 ⟨_, hcdec, rfl, (forwardsOk_succ_iff ..).2 ⟨_, hload, rfl, rfl⟩⟩

/-- Under RESAMPLE the `LOAD`'s undo leaves `store` at 1, which opens the gate of a move that was never made. -/
theorem backward_divergenceEnd_of_resample (hsize : c.memSize = 1) (hm : c.undoMode = .resample) :
    backward (divergenceEnd c) = .next { divergenceEnd c with step := 1 } ∧
      backward { divergenceEnd c with step := 1 } = .next { divergenceEnd c with step := 1, flt := 2, last := 2 } :=
  ⟨backward_of_completes rfl rfl decode_divergence_load (.loadResample hm c.memSize_pos),
    backward_of_raises rfl rfl decode_divergence_cdec (.cdec 1 rfl hsize.le)⟩

/-- Under TRACE the `LOAD`'s undo gives back the 0, and the gate stays shut. -/
theorem backward_divergenceEnd_of_trace (hcap : 2 ≤ c.progCap) (hm : c.undoMode = .trace) :
    backward (divergenceEnd c) = .next { divergenceEnd c with step := 1, store := 0 } ∧
      backward { divergenceEnd c with step := 1, store := 0 } = .next { divergenceEnd c with step := 0, store := 0 } :=
  ⟨backward_of_completes rfl rfl decode_divergence_load (.loadTrace hm hcap),
    backward_of_completes rfl rfl decode_divergence_cdec (.cdecGated 1 bit_zero_ne_one)⟩

end

end Sys2Proof.Machine

namespace Sys2Proof.Proofs

open Sys2Proof.Machine

/-- Settles O58: a completed Forward adds the slot that its undo takes off, a completed Backward takes one off, and
nothing else but a reset touches what the history is made of. -/
theorem everyStepKeepsTraceHistory : Obligations.EveryStepKeepsTraceHistory :=
  fun _ _ => step_retraceable

/-- Settles O23: the undo of `INC` has one check and no gate. -/
theorem backwardIncMovesAddressDownOrFaults : Obligations.BackwardIncMovesAddressDownOrFaults :=
  fun _ _ n _ hs hw hd => ⟨div_of_decode hd, fun h => backward_of_completes hs hw hd (.inc n h),
    fun h => backward_of_raises hs hw hd (.inc n h)⟩

/-- Settles O24: the undo of `INV` is the flip that `INV` is. -/
theorem backwardInvFlipsAddressedBit : Obligations.BackwardInvFlipsAddressedBit :=
  fun s _ _ hs hw hd ha hm => ⟨div_of_decode hd, s.mem.flip s.addr, backward_of_completes hs hw hd (.inv ha),
    Memory.read_flip hm s.addr⟩

/-- Settles O25: each mode has its own undo of `LOAD`, and its own access that must exist. -/
theorem backwardLoadRestoresStoreByMode : Obligations.BackwardLoadRestoresStoreByMode :=
  fun _ _ _ hs hw hd => ⟨div_of_decode hd, fun hm ha => backward_of_completes hs hw hd (.loadResample hm ha),
    fun hm hk => backward_of_completes hs hw hd (.loadTrace hm hk)⟩

/-- Settles O26: the current `store` gates the move up, and its one check decides the rest. -/
theorem backwardCdecMovesAddressUpIfStore : Obligations.BackwardCdecMovesAddressUpIfStore :=
  fun _ _ n _ hs hw hd => ⟨div_of_decode hd, fun h => backward_of_completes hs hw hd (.cdecGated n (by simp [h])),
    fun h hn => backward_of_completes hs hw hd (.cdec n h hn),
    fun h hn => backward_of_raises hs hw hd (.cdec n h hn)⟩

/-- Settles O28: the slot below `step` holds a word, and the invariants give the bit and the trace slot that its undo
may need. -/
theorem backwardUndoesPreviousSlot : Obligations.BackwardUndoesPreviousSlot := by
  intro s hi
  refine ⟨backward_of_step_zero, fun k hs => ?_⟩
  obtain ⟨⟨w, hw⟩, hk⟩ := hi.fetch_previous hs
  obtain ⟨t, ht⟩ := undo_answers (decode w) hi.addr_lt hk
  refine ⟨w, t, hw, ht, (backward_of_fetch hs hw).trans ht, ?_⟩
  rcases undo_next ht with ⟨u, hu, rfl⟩ | ⟨f, -, rfl⟩
  · obtain ⟨-, -, hflt, -⟩ := hu.frame
    exact .inl ⟨rfl, rfl, hflt⟩
  · exact .inr ⟨f, rfl⟩

/-- Settles O34: the no-op at step 0 and a fault write `LAST` and `FLT` only, and each completed undo writes its own
part of the state. -/
theorem backwardWritesOnlyNamedState : Obligations.BackwardWritesOnlyNamedState := by
  intro s t hm h
  rcases backward_next h with ⟨-, rfl⟩ | ⟨k, w, i, hk, hw, hd, ⟨u, hc, rfl⟩ | ⟨f, -, rfl⟩⟩
  · simp
  · have hprev : s.step - 1 = k := by omega
    have hslot : (s.prog[k]?).map decode = some i := (congrArg (Option.map decode) hw).trans (congrArg some hd)
    obtain ⟨hcfg, -, -, -, hundo, hprog, hcmds, hresp⟩ := hc.frame
    rw [hprev, hslot]
    refine ⟨hcfg, hprog, hundo, hcmds, hresp, fun a hne => ?_, fun hne => ?_, fun hne => ?_⟩
    · obtain ⟨ha, hi⟩ := hc.of_read_mem_ne hm hne
      exact ⟨ha, congrArg some hi⟩
    · exact congrArg some (hc.store_cases.resolve_left hne)
    · simpa using hc.addr_cases.resolve_left hne
  · simp

/-- Settles O40: a fault writes nothing that a Backward reads. -/
theorem backwardAfterFaultUndoesLastCompleted : Obligations.BackwardAfterFaultUndoesLastCompleted := by
  intro s t u h hfault hback _
  have hlast : t.last ≠ 0 := by
    intro hzero
    rw [hzero] at hfault
    exact absurd hfault (by decide)
  obtain ⟨v, hv, huv, hvlast⟩ := (forward_not_ok_undoesAlike h hlast).backward hback
  exact ⟨v, hv, huv.addr, huv.store, huv.step, huv.mem, hvlast⟩

/-- Settles O51: the undo of the instruction that completed leads back, but for the `store` of a `LOAD` under
RESAMPLE. -/
theorem forwardThenBackwardRestores : Obligations.ForwardThenBackwardRestores := by
  intro s t hi h
  refine ⟨fun hlast => ?_, forward_not_ok h⟩
  obtain ⟨w, u, hw, hu, hback, halike⟩ := forward_undone hi h hlast
  obtain ⟨-, -, hflt, -⟩ := hu.frame
  have hprog : u.prog = s.prog := halike.prog
  have hphase : (u.completeAt s.step).phase = s.phase := by
    simp [State.phase, State.done, State.progLen, hprog]
  have hstore : u.store = s.storeAfterUndo (decode w) := halike.store
  have hslot : (s.prog[s.step]?).map decode = some (decode w) := congrArg (Option.map decode) hw
  refine ⟨_, hback, rfl, halike.addr, halike.mem, hphase, rfl,
    hflt.trans ((forward_latchesFirstFault h).flt_of_last_ok hlast), ?_⟩
  simp only [hslot, Option.some.injEq]
  exact hstore

/-- Settles O52: each Backward leaves a state that undoes like the one its Forward started from. -/
theorem traceBackwardRetracesForward : Obligations.TraceBackwardRetracesForward := by
  intro n s t hi hm h
  obtain ⟨u, hu, hsu⟩ := forwardsOk_undone hi hm h
  exact ⟨u, hu, hsu.addr, hsu.store, hsu.step, hsu.mem⟩

/-- Settles O53: the last slot of the history has an exact inverse. -/
theorem traceBackwardNeverFaults : Obligations.TraceBackwardNeverFaults := by
  intro s hi hm hr hpos
  have hs : s.step = (s.step - 1) + 1 := by omega
  obtain ⟨w, u, hu, hback⟩ := backward_of_retraceable hi hr hm hs
  obtain ⟨-, -, hflt, -⟩ := hu.frame
  exact ⟨_, hback, rfl, rfl, hflt⟩

/-- Settles O54: the two modes differ in the `store` that the first Backward leaves, and with it in the gate of the
second. -/
theorem resampleBackwardDiverges : Obligations.ResampleBackwardDiverges := by
  intro c hsize hcap
  have hforwards := forwardsOk_divergenceStart hcap
  cases hm : c.undoMode with
  | resample =>
    obtain ⟨hload, hcdec⟩ := backward_divergenceEnd_of_resample hsize hm
    exact ⟨_, _, _, hforwards, (backwardsOk_succ_iff ..).2 ⟨_, hload, rfl, rfl⟩, hcdec,
      fun _ => ⟨rfl, rfl, rfl, rfl, rfl⟩, nofun⟩
  | trace =>
    obtain ⟨hload, hcdec⟩ := backward_divergenceEnd_of_trace hcap hm
    exact ⟨_, _, _, hforwards, (backwardsOk_succ_iff ..).2 ⟨_, hload, rfl, rfl⟩, hcdec,
      nofun, fun _ => ⟨rfl, rfl, rfl, rfl, rfl⟩⟩

end Sys2Proof.Proofs
end

section
/-! PROOFS for 45_host_interface.md: what each command answers (section 2), that the commands behind the oldest one do
not matter (section 1), and the opening and the end of a run (section 3). -/

namespace Sys2Proof.Machine

/-! ### A command's answer is the step's (R120, R131) -/

section
variable {s t : State} {c : Command} {rest : List Command}

theorem step_of_performCommand {r : Response} (hc : s.cmds = c :: rest) (hp : performCommand c s = .next (t, r)) :
    step s = .next (t.answer rest r) := by
  rw [step_eq_processCommand, processCommand_cons hc, hp]

/-- A command whose argument is out of range is answered with BAD_ARGUMENT, in the state as it was (R130). -/
theorem step_of_badArgument (hc : s.cmds = c :: rest) (hp : performCommand c s = .next (s, .of .badArgument 0)) :
    step s = .next { s with cmds := rest, responses := { result := 5, data := 0 } :: s.responses } :=
  step_of_performCommand hc hp

end

/-! ### What each command does in each case (the converses of `performCommand_next`) -/

section
variable {s t : State}

theorem performCommand_reset : performCommand .reset s = .next (s.resetEngine, .of .ok 0) := rfl

theorem performCommand_forward (h : forward s = .next t) : performCommand .forward s = .next (t, ⟨t.last, 0⟩) :=
  congrArg respondLast h

theorem performCommand_backward (h : backward s = .next t) : performCommand .backward s = .next (t, ⟨t.last, 0⟩) :=
  congrArg respondLast h

theorem performCommand_run (h : run s = .next t) : performCommand .run s = .next (t, ⟨t.last, 0⟩) :=
  congrArg respondLast h

theorem performCommand_memWrite_of_lt {a : Word} (v : Word) (h : a.toNat < s.cfg.memSize) :
    performCommand (.memWrite a v) s = .next (s.writeMem a.toNat (v.extractLsb' 0 1), .of .ok 0) :=
  if_neg (Nat.not_le.2 h)

theorem performCommand_memWrite_of_le {a : Word} (v : Word) (h : s.cfg.memSize ≤ a.toNat) :
    performCommand (.memWrite a v) s = .next (s, .of .badArgument 0) :=
  if_pos h

theorem performCommand_memRead_of_lt {a : Word} (h : a.toNat < s.cfg.memSize) :
    performCommand (.memRead a) s = .next (s, .of .ok ((s.mem.read a.toNat).setWidth 32)) :=
  if_neg (Nat.not_le.2 h)

theorem performCommand_memRead_of_le {a : Word} (h : s.cfg.memSize ≤ a.toNat) :
    performCommand (.memRead a) s = .next (s, .of .badArgument 0) :=
  if_pos h

theorem performCommand_readReg_of_some {i d : Word} (h : s.register i = some d) :
    performCommand (.readReg i) s = .next (s, .of .ok d) := by
  simp [performCommand, cmdReadReg, h]

theorem performCommand_readReg_of_none {i : Word} (h : s.register i = none) :
    performCommand (.readReg i) s = .next (s, .of .badArgument 0) := by
  simp [performCommand, cmdReadReg, h]

theorem performCommand_loadProgram_of_le {ws : List Word} (h : ws.length ≤ s.cfg.progCap) :
    performCommand (.loadProgram ws) s = .next ((s.withProgram ws).resetEngine, .of .ok 0) :=
  if_neg (Nat.not_lt.2 h)

theorem performCommand_loadProgram_of_lt {ws : List Word} (h : s.cfg.progCap < ws.length) :
    performCommand (.loadProgram ws) s = .next (s, .of .badArgument 0) :=
  if_pos h

end

/-! ### The register map (R128, 10_state.md R33) -/

/-- Two fields side by side, the upper one at its weight. -/
theorem toNat_append_weight {m n : Nat} (x : BitVec m) (y : BitVec n) :
    (x ++ y).toNat = 2 ^ n * x.toNat + y.toNat := by
  rw [BitVec.toNat_append, ← Nat.shiftLeft_add_eq_or_of_lt y.isLt, Nat.shiftLeft_eq, Nat.mul_comm]

section
variable (s : State) {i : Word}

theorem State.register_status (h : i.toNat = 0) : s.register i = some s.status := by
  simp [State.register, h]

theorem State.register_addr (h : i.toNat = 1) : s.register i = some (BitVec.ofNat 32 s.addr) := by
  simp [State.register, h]

theorem State.register_step (h : i.toNat = 2) : s.register i = some (BitVec.ofNat 32 s.step) := by
  simp [State.register, h]

theorem State.register_progLen (h : i.toNat = 3) : s.register i = some (BitVec.ofNat 32 s.progLen) := by
  simp [State.register, h]

theorem State.register_memSize (h : i.toNat = 4) : s.register i = some (BitVec.ofNat 32 (s.cfg.memSize - 1)) := by
  simp [State.register, h]

theorem State.register_reserved (h : 5 ≤ i.toNat) : s.register i = none := by
  obtain ⟨k, hk⟩ := Nat.exists_eq_add_of_le' h
  simp [State.register, hk]

theorem bitOf_done_toNat : (bitOf s.done).toNat = if s.step = s.progLen then 1 else 0 := by
  by_cases h : s.step = s.progLen <;> simp [bitOf, State.done, h]

theorem undoTraceBit_toNat (c : Config) : (undoTraceBit c).toNat = if c.undoMode = .trace then 1 else 0 := by
  unfold undoTraceBit
  cases c.undoMode <;> rfl

/-- STATUS by the weights of its fields. -/
theorem State.status_toNat :
    s.status.toNat = (if s.step = s.progLen then 1 else 0) + 2 * s.store.toNat + 4 * s.flt.toNat +
      16 * s.last.toNat + (if s.cfg.undoMode = .trace then 128 else 0) := by
  have hweight : (if s.cfg.undoMode = .trace then 128 else 0) = 128 * if s.cfg.undoMode = .trace then 1 else 0 := by
    split <;> rfl
  rw [hweight]
  simp only [State.status, toNat_append_weight, bitOf_done_toNat, undoTraceBit_toNat, BitVec.toNat_zero]
  ring

end

/-- Every number of the map fits its word (10_state.md R34). -/
theorem State.Inv.register_of_lt {s : State} (hi : s.Inv) {i : Word} (h : i.toNat < 5) :
    ∃ d, s.register i = some d ∧
      (i.toNat = 0 → d.toNat = s.status.toNat) ∧ (i.toNat = 1 → d.toNat = s.addr) ∧ (i.toNat = 2 → d.toNat = s.step) ∧
      (i.toNat = 3 → d.toNat = s.progLen) ∧ (i.toNat = 4 → d.toNat = s.cfg.memSize - 1) := by
  have haddr := hi.addr_lt
  have hstep := hi.step_le
  have hlen := hi.progLen_le
  have hmem := s.cfg.memSize_le
  have hcap := s.cfg.progCap_le
  have fits {n : Nat} (hn : n < 4294967296) : (BitVec.ofNat 32 n).toNat = n :=
    (BitVec.toNat_ofNat n 32).trans (Nat.mod_eq_of_lt hn)
  obtain h | h | h | h | h : i.toNat = 0 ∨ i.toNat = 1 ∨ i.toNat = 2 ∨ i.toNat = 3 ∨ i.toNat = 4 := by omega
  · exact ⟨_, s.register_status h, by simp [h]⟩
  · exact ⟨_, s.register_addr h, by rw [fits (by omega)]; simp [h]⟩
  · exact ⟨_, s.register_step h, by rw [fits (by omega)]; simp [h]⟩
  · exact ⟨_, s.register_progLen h, by rw [fits (by omega)]; simp [h]⟩
  · exact ⟨_, s.register_memSize h, by rw [fits (by omega)]; simp [h]⟩

/-! ### Bit 0 of a MEM_WRITE's argument (R126) -/

theorem extractLsb'_zero_one (v : Word) : v.extractLsb' 0 1 = BitVec.ofBool (v.getLsbD 0) := by
  ext i hi
  obtain rfl : i = 0 := by omega
  simp

/-! ### The host's two ends under each command (R120, R131) -/

/-- From `s` to `t` the commands issued and the responses returned are kept: only the answer itself touches them. -/
def KeepsHost (s t : State) : Prop :=
  t.cmds = s.cmds ∧ t.responses = s.responses

theorem KeepsHost.trans {s t u : State} (hst : KeepsHost s t) (htu : KeepsHost t u) : KeepsHost s u :=
  ⟨htu.1.trans hst.1, htu.2.trans hst.2⟩

theorem forward_keepsHost {s t : State} (h : forward s = .next t) : KeepsHost s t := by
  rcases forward_next h with ⟨-, rfl⟩ | ⟨_, i, -, -, -, ⟨u, hu, rfl⟩ | ⟨f, -, rfl⟩⟩
  · exact ⟨rfl, rfl⟩
  · obtain ⟨-, -, -, -, -, hcmds, hresp⟩ := hu.frame
    exact ⟨hcmds, hresp⟩
  · exact ⟨rfl, rfl⟩

theorem backward_keepsHost {s t : State} (h : backward s = .next t) : KeepsHost s t := by
  rcases backward_next h with ⟨-, rfl⟩ | ⟨k, _, i, -, -, -, ⟨u, hu, rfl⟩ | ⟨f, -, rfl⟩⟩
  · exact ⟨rfl, rfl⟩
  · obtain ⟨-, -, -, -, -, -, hcmds, hresp⟩ := hu.frame
    exact ⟨hcmds, hresp⟩
  · exact ⟨rfl, rfl⟩

theorem run_keepsHost {s t : State} (h : run s = .next t) : KeepsHost s t :=
  run_induction (R := KeepsHost) (fun _ _ _ => .trans) (fun _ _ => forward_keepsHost) h

theorem performCommand_keepsHost {c : Command} {s u : State} {r : Response} (h : performCommand c s = .next (u, r)) :
    KeepsHost s u := by
  rcases performCommand_next h with ⟨-, rfl, -⟩ | ⟨-, hu, -⟩ | ⟨-, hu, -⟩ | ⟨-, hu, -⟩ |
    ⟨a, v, -, hwrite⟩ | ⟨a, -, rfl, -⟩ | ⟨i, -, rfl, -⟩ | ⟨ws, -, hload⟩
  · exact ⟨rfl, rfl⟩
  · exact forward_keepsHost hu
  · exact backward_keepsHost hu
  · exact run_keepsHost hu
  · rcases hwrite with ⟨-, rfl, -⟩ | ⟨-, rfl, -⟩ <;> exact ⟨rfl, rfl⟩
  · exact ⟨rfl, rfl⟩
  · exact ⟨rfl, rfl⟩
  · rcases hload with ⟨-, rfl, -⟩ | ⟨-, rfl, -⟩ <;> exact ⟨rfl, rfl⟩

/-- Only a MEM_READ or READ_REG that returns OK carries data. -/
theorem performCommand_data {c : Command} {s u : State} {r : Response} (h : performCommand c s = .next (u, r)) :
    r.data = 0 ∨ (r.result = 0 ∧ ((∃ a, c = .memRead a) ∨ ∃ i, c = .readReg i)) := by
  rcases performCommand_next h with ⟨-, -, rfl⟩ | ⟨-, -, rfl⟩ | ⟨-, -, rfl⟩ | ⟨-, -, rfl⟩ |
    ⟨a, v, -, hwrite⟩ | ⟨a, hc, -, hread⟩ | ⟨i, hc, -, hreg⟩ | ⟨ws, -, hload⟩
  · exact .inl rfl
  · exact .inl rfl
  · exact .inl rfl
  · exact .inl rfl
  · rcases hwrite with ⟨-, -, rfl⟩ | ⟨-, -, rfl⟩ <;> exact .inl rfl
  · rcases hread with ⟨-, rfl⟩ | ⟨-, rfl⟩
    · exact .inl rfl
    · exact .inr ⟨rfl, .inl ⟨a, hc⟩⟩
  · rcases hreg with ⟨-, rfl⟩ | ⟨d, -, rfl⟩
    · exact .inl rfl
    · exact .inr ⟨rfl, .inr ⟨i, hc⟩⟩
  · rcases hload with ⟨-, -, rfl⟩ | ⟨-, -, rfl⟩ <;> exact .inl rfl

/-- The step of a command that performs a sequencer and answers what it wrote to `LAST` (R123 to R125). -/
theorem step_of_answerLast {s t : State} {c : Command} {rest : List Command} (hc : s.cmds = c :: rest)
    (hp : performCommand c s = .next (t, ⟨t.last, 0⟩)) :
    step s = .next { t with cmds := rest, responses := { result := t.last, data := 0 } :: s.responses } := by
  obtain ⟨-, hresp⟩ := performCommand_keepsHost hp
  rw [← hresp]
  exact step_of_performCommand hc hp

/-! ### The results of the two sequencers (R123, R124) -/

theorem AddressFault.isFaultCode_result (f : AddressFault) : isFaultCode f.result.code = true := by
  cases f <;> rfl

/-- Below L a Forward answers OK or an addressing fault. -/
theorem forward_last_of_lt {s t : State} (hk : s.step < s.progLen) (h : forward s = .next t) :
    (t.last = 0 ∧ t.step = s.step + 1) ∨ isFaultCode t.last = true := by
  rcases forward_next h with ⟨hdone, -⟩ | ⟨_, i, -, -, -, ⟨u, -, rfl⟩ | ⟨f, -, rfl⟩⟩
  · omega
  · exact .inl ⟨rfl, rfl⟩
  · exact .inr f.isFaultCode_result

theorem forward_last_mem {s t : State} (h : forward s = .next t) : t.last ∈ [0#3, 1#3, 2#3, 3#3] := by
  rcases forward_next h with ⟨-, rfl⟩ | ⟨_, i, -, -, -, ⟨u, -, rfl⟩ | ⟨f, -, rfl⟩⟩
  · simp
  · simp
  · rcases f.result_code_cases with hf | hf <;> simp [hf]

theorem backward_last_mem {s t : State} (h : backward s = .next t) : t.last ∈ [0#3, 1#3, 2#3, 4#3] := by
  rcases backward_next h with ⟨-, rfl⟩ | ⟨k, _, i, -, -, -, ⟨u, -, rfl⟩ | ⟨f, -, rfl⟩⟩
  · simp
  · simp
  · rcases f.result_code_cases with hf | hf <;> simp [hf]

/-! ### RUN as its Forwards (R125, 70_reset_and_hazards.md R170) -/

/-- One round of the loop: a Forward that answers OK below L goes on, any other is the last. -/
theorem runLoop_succ_iff (fuel : Nat) (s t : State) :
    runLoop (fuel + 1) s = .next t ↔
      ∃ v, forward s = .next v ∧
        ((v.last = 0 ∧ v.done = false ∧ runLoop fuel v = .next t) ∨ ((v.last ≠ 0 ∨ v.done = true) ∧ v = t)) := by
  cases h : forward s with
  | next v =>
    have hround : runLoop (fuel + 1) s = if v.last = 0 ∧ v.done = false then runLoop fuel v else .next v := by
      simp [runLoop, h]
    rw [hround]
    split
    · rename_i hgo
      simp [hgo]
    · rename_i hgo
      have hstop : v.last ≠ 0 ∨ v.done = true := by
        rwa [← Bool.not_eq_false, ← not_and_or]
      simp only [Host.Outcome.next.injEq, exists_eq_left']
      tauto
  | fault f => simp [runLoop, h]
  | refused f => simp [runLoop, h]

theorem run_of_done {s : State} (h : s.step = s.progLen) : run s = .next (s.withLast .noopDone) :=
  if_pos ((State.done_iff s).2 h)

theorem run_of_lt {s : State} (h : s.step < s.progLen) : run s = runLoop (s.progLen - s.step) s := by
  have hdone : s.done = false := (State.done_eq_false_iff s).2 h.ne
  simp [run, hdone]

/-- Forwards that answer OK below L, and one more that ends there or does not answer OK, are the loop, given room. -/
theorem runLoop_of_forwards {n fuel : Nat} {s u t : State} (hn : forwardsOk n s = some u) (ht : forward u = .next t)
    (hfuel : n < fuel) (hL : s.step + n < s.progLen) (hend : t.last ≠ 0 ∨ t.done = true) :
    runLoop fuel s = .next t := by
  induction n generalizing s fuel with
  | zero =>
    obtain rfl : s = u := by simpa [forwardsOk] using hn
    obtain ⟨fuel, rfl⟩ := Nat.exists_eq_succ_of_ne_zero hfuel.ne'
    exact (runLoop_succ_iff fuel s t).2 ⟨t, ht, .inr ⟨hend, rfl⟩⟩
  | succ n ih =>
    obtain ⟨fuel, rfl⟩ := Nat.exists_eq_succ_of_ne_zero (Nat.ne_zero_of_lt hfuel)
    obtain ⟨v, hv, hlast, hn⟩ := (forwardsOk_succ_iff n s u).1 hn
    obtain ⟨_, -, -, -, hstep⟩ := forward_ok hv hlast
    obtain ⟨-, hprog⟩ := forward_keepsProgram hv
    have hlen : v.progLen = s.progLen := congrArg List.length hprog
    have hgo : v.done = false := (State.done_eq_false_iff v).2 (by omega)
    exact (runLoop_succ_iff fuel s t).2 ⟨v, hv, .inl ⟨hlast, hgo, ih hn (by omega) (by omega)⟩⟩

theorem run_of_forwards {n : Nat} {s u t : State} (hn : forwardsOk n s = some u) (ht : forward u = .next t)
    (hL : s.step + n < s.progLen) (hend : t.last ≠ 0 ∨ t.done = true) : run s = .next t := by
  rw [run_of_lt (by omega)]
  exact runLoop_of_forwards hn ht (by omega) hL hend

/-! ### From the invariants every command answers -/

section
variable {s : State} (hi : s.Inv)
include hi

theorem State.Inv.forward_answers : ∃ t, forward s = .next t := by
  rcases hi.step_le.eq_or_lt with hdone | hk
  · exact ⟨_, forward_of_done hdone⟩
  · obtain ⟨w, hw⟩ := fetch_lt hk
    rw [forward_of_fetch hk hw]
    exact exec_answers (decode w) hi.addr_lt (Nat.lt_of_lt_of_le hk hi.progLen_le)

theorem State.Inv.backward_answers : ∃ t, backward s = .next t := by
  cases hs : s.step with
  | zero => exact ⟨_, backward_of_step_zero hs⟩
  | succ k =>
    obtain ⟨⟨w, hw⟩, hk⟩ := hi.fetch_previous hs
    rw [backward_of_fetch hs hw]
    exact undo_answers (decode w) hi.addr_lt hk

/-- A Forward below L advances or faults, so repeating it reaches L or a fault before the slots run out (R170). -/
theorem State.Inv.forwards_until_done_or_fault (hk : s.step < s.progLen) :
    ∃ n u t, s.step + n < s.progLen ∧ forwardsOk n s = some u ∧ forward u = .next t ∧
      ((t.last = 0 ∧ t.step = s.progLen) ∨ isFaultCode t.last = true) := by
  obtain ⟨left, hleft⟩ := Nat.exists_eq_add_of_lt hk
  induction left generalizing s with
  | zero =>
    obtain ⟨t, ht⟩ := hi.forward_answers
    refine ⟨0, s, t, hk, rfl, ht, ?_⟩
    rcases forward_last_of_lt hk ht with ⟨hlast, hstep⟩ | hfault
    · exact .inl ⟨hlast, by omega⟩
    · exact .inr hfault
  | succ left ih =>
    obtain ⟨v, hv⟩ := hi.forward_answers
    rcases forward_last_of_lt hk hv with ⟨hlast, hstep⟩ | hfault
    · obtain ⟨-, hprog⟩ := forward_keepsProgram hv
      have hlen : v.progLen = s.progLen := congrArg List.length hprog
      obtain ⟨n, u, t, hL, hn, ht, hend⟩ := ih (forward_inv hi hv) (by omega) (by omega)
      exact ⟨n + 1, u, t, by omega, (forwardsOk_succ_iff n s u).2 ⟨v, hv, hlast, hn⟩, ht, hlen ▸ hend⟩
    · exact ⟨0, s, v, hk, rfl, hv, .inr hfault⟩

theorem State.Inv.run_is_forwards (hk : s.step < s.progLen) :
    ∃ n u t, s.step + n < s.progLen ∧ forwardsOk n s = some u ∧ u.step = s.step + n ∧ forward u = .next t ∧
      run s = .next t ∧ ((t.last = 0 ∧ t.step = s.progLen) ∨ isFaultCode t.last = true) := by
  obtain ⟨n, u, t, hL, hn, ht, hend⟩ := hi.forwards_until_done_or_fault hk
  obtain ⟨hstep, hsu⟩ := forwardsOk_step hn
  obtain ⟨-, hprog⟩ := hsu.trans (forward_keepsProgram ht)
  have hlen : t.progLen = s.progLen := congrArg List.length hprog
  have hstop : t.last ≠ 0 ∨ t.done = true := by
    rcases hend with ⟨-, hdone⟩ | hfault
    · exact .inr ((State.done_iff t).2 (hdone.trans hlen.symm))
    · refine .inl fun hzero => ?_
      rw [hzero] at hfault
      exact absurd hfault (by decide)
  exact ⟨n, u, t, hL, hn, hstep, ht, run_of_forwards hn ht hL hstop, hend⟩

theorem State.Inv.run_answers : ∃ t, run s = .next t := by
  rcases hi.step_le.eq_or_lt with hdone | hk
  · exact ⟨_, run_of_done hdone⟩
  · obtain ⟨-, -, t, -, -, -, -, ht, -⟩ := hi.run_is_forwards hk
    exact ⟨t, ht⟩

theorem State.Inv.performCommand_answers (c : Command) : ∃ u r, performCommand c s = .next (u, r) := by
  cases c with
  | reset => exact ⟨_, _, performCommand_reset⟩
  | forward =>
    obtain ⟨t, ht⟩ := hi.forward_answers
    exact ⟨_, _, performCommand_forward ht⟩
  | backward =>
    obtain ⟨t, ht⟩ := hi.backward_answers
    exact ⟨_, _, performCommand_backward ht⟩
  | run =>
    obtain ⟨t, ht⟩ := hi.run_answers
    exact ⟨_, _, performCommand_run ht⟩
  | memWrite a v =>
    rcases Nat.lt_or_ge a.toNat s.cfg.memSize with ha | ha
    · exact ⟨_, _, performCommand_memWrite_of_lt v ha⟩
    · exact ⟨_, _, performCommand_memWrite_of_le v ha⟩
  | memRead a =>
    rcases Nat.lt_or_ge a.toNat s.cfg.memSize with ha | ha
    · exact ⟨_, _, performCommand_memRead_of_lt ha⟩
    · exact ⟨_, _, performCommand_memRead_of_le ha⟩
  | readReg i =>
    cases hr : s.register i with
    | some d => exact ⟨_, _, performCommand_readReg_of_some hr⟩
    | none => exact ⟨_, _, performCommand_readReg_of_none hr⟩
  | loadProgram ws =>
    rcases Nat.lt_or_ge s.cfg.progCap ws.length with hlen | hlen
    · exact ⟨_, _, performCommand_loadProgram_of_lt hlen⟩
    · exact ⟨_, _, performCommand_loadProgram_of_le hlen⟩

end

/-! ### Commands issued behind the oldest one (section 1)

Issuing commands commutes with everything a command does: none of it reads the commands issued. -/

section
variable (cs : List Command)

theorem Completes.issue {s u : State} {i : Instr} (h : Completes s i u) : Completes (s.issue cs) i (u.issue cs) := by
  cases h with
  | inc n h => exact .inc n h
  | inv h => exact .inv h
  | loadResample hm h => exact .loadResample hm h
  | loadTrace hm hk h => exact .loadTrace hm hk h
  | cdec n hs h => exact .cdec n hs h
  | cdecGated n hs => exact .cdecGated n hs

theorem Raises.issue {s : State} {i : Instr} {f : AddressFault} (h : Raises s i f) : Raises (s.issue cs) i f := by
  cases h with
  | inc n h => exact .inc n h
  | cdec n hs h => exact .cdec n hs h

theorem UndoCompletes.issue {s u : State} {k : Nat} {i : Instr} (h : UndoCompletes s k i u) :
    UndoCompletes (s.issue cs) k i (u.issue cs) := by
  cases h with
  | inc n h => exact .inc n h
  | inv h => exact .inv h
  | loadResample hm h => exact .loadResample hm h
  | loadTrace hm hk => exact .loadTrace hm hk
  | cdec n hs h => exact .cdec n hs h
  | cdecGated n hs => exact .cdecGated n hs

theorem UndoRaises.issue {s : State} {i : Instr} {f : AddressFault} (h : UndoRaises s i f) :
    UndoRaises (s.issue cs) i f := by
  cases h with
  | inc n h => exact .inc n h
  | cdec n hs h => exact .cdec n hs h

theorem forward_issue {s t : State} (h : forward s = .next t) : forward (s.issue cs) = .next (t.issue cs) := by
  rcases forward_next h with ⟨hdone, rfl⟩ | ⟨w, i, hk, hw, rfl, ⟨u, hu, rfl⟩ | ⟨f, hf, rfl⟩⟩
  · exact forward_of_done (s := s.issue cs) hdone
  · exact forward_of_completes (s := s.issue cs) hk hw rfl (hu.issue cs)
  · exact (forward_of_fetch (s := s.issue cs) hk hw).trans (exec_of_raises (hf.issue cs))

theorem backward_issue {s t : State} (h : backward s = .next t) : backward (s.issue cs) = .next (t.issue cs) := by
  rcases backward_next h with ⟨hzero, rfl⟩ | ⟨k, w, i, hk, hw, hd, ⟨u, hu, rfl⟩ | ⟨f, hf, rfl⟩⟩
  · exact backward_of_step_zero (s := s.issue cs) hzero
  · exact backward_of_completes (s := s.issue cs) hk hw hd (hu.issue cs)
  · exact backward_of_raises (s := s.issue cs) hk hw hd (hf.issue cs)

theorem runLoop_issue {fuel : Nat} {s t : State} (h : runLoop fuel s = .next t) :
    runLoop fuel (s.issue cs) = .next (t.issue cs) := by
  induction fuel generalizing s with
  | zero => cases h
  | succ fuel ih =>
    obtain ⟨v, hv, hnext⟩ := (runLoop_succ_iff fuel s t).1 h
    refine (runLoop_succ_iff fuel _ _).2 ⟨v.issue cs, forward_issue cs hv, ?_⟩
    rcases hnext with ⟨hlast, hgo, hloop⟩ | ⟨hstop, rfl⟩
    · exact .inl ⟨hlast, hgo, ih hloop⟩
    · exact .inr ⟨hstop, rfl⟩

theorem run_issue {s t : State} (h : run s = .next t) : run (s.issue cs) = .next (t.issue cs) := by
  unfold run at h
  split at h
  · rename_i hdone
    obtain rfl : s.withLast .noopDone = t := by simpa using h
    exact run_of_done (s := s.issue cs) ((State.done_iff s).1 hdone)
  · rename_i hdone
    exact (if_neg hdone).trans (runLoop_issue cs h)

theorem performCommand_issue {c : Command} {s u : State} {r : Response} (h : performCommand c s = .next (u, r)) :
    performCommand c (s.issue cs) = .next (u.issue cs, r) := by
  rcases performCommand_next h with ⟨rfl, rfl, rfl⟩ | ⟨rfl, hu, rfl⟩ | ⟨rfl, hu, rfl⟩ | ⟨rfl, hu, rfl⟩ |
    ⟨a, v, rfl, hwrite⟩ | ⟨a, rfl, rfl, hread⟩ | ⟨i, rfl, rfl, hreg⟩ | ⟨ws, rfl, hload⟩
  · rfl
  · exact performCommand_forward (forward_issue cs hu)
  · exact performCommand_backward (backward_issue cs hu)
  · exact performCommand_run (run_issue cs hu)
  · rcases hwrite with ⟨ha, rfl, rfl⟩ | ⟨ha, rfl, rfl⟩
    · exact performCommand_memWrite_of_le (s := u.issue cs) v ha
    · exact performCommand_memWrite_of_lt (s := s.issue cs) v ha
  · rcases hread with ⟨ha, rfl⟩ | ⟨ha, rfl⟩
    · exact performCommand_memRead_of_le (s := u.issue cs) ha
    · exact performCommand_memRead_of_lt (s := u.issue cs) ha
  · rcases hreg with ⟨hr, rfl⟩ | ⟨d, hr, rfl⟩
    · exact performCommand_readReg_of_none (s := u.issue cs) hr
    · exact performCommand_readReg_of_some (s := u.issue cs) hr
  · rcases hload with ⟨hlen, rfl, rfl⟩ | ⟨hlen, rfl, rfl⟩
    · exact performCommand_loadProgram_of_lt (s := u.issue cs) hlen
    · exact performCommand_loadProgram_of_le (s := s.issue cs) hlen

end

/-! ### The opening of a trial (R133) -/

/-- The memory after the input bits `bs` are written at the addresses from `a` on: what `inputCommands` does
(`stepTimes_inputCommands`). -/
def Memory.writeBits (m : Memory) : Nat → List Bit → Memory
  | _, [] => m
  | a, b :: bs => Memory.writeBits (m.write a b) (a + 1) bs

theorem Memory.read_writeBits {m : Memory} (hm : m.wf) (a : Nat) (bs : List Bit) (x : Nat) :
    (m.writeBits a bs).read x = if a ≤ x then (bs[x - a]?).getD (m.read x) else m.read x := by
  induction bs generalizing m a with
  | nil => simp [Memory.writeBits]
  | cons b bs ih =>
    rw [Memory.writeBits, ih (Memory.write_wf hm a b), Memory.read_write hm]
    rcases Nat.lt_trichotomy x a with hx | rfl | hx
    · rw [if_neg (by omega), if_neg (by omega), if_neg (by omega)]
    · simp
    · obtain ⟨j, rfl⟩ := Nat.exists_eq_add_of_lt hx
      have hnext : a + j + 1 - (a + 1) = j := by omega
      have hthis : a + j + 1 - a = j + 1 := by omega
      rw [if_pos (by omega), if_pos hx.le, if_neg (by omega), hnext, hthis, List.getElem?_cons_succ]

/-- Bit 0 of the word that carries an input bit is the bit. -/
theorem extractLsb'_setWidth_bit (b : Bit) : (b.setWidth 32).extractLsb' 0 1 = b := by
  rcases BitVec.eq_zero_or_eq_one b with rfl | rfl <;> rfl

theorem step_inputCommand {s : State} {a : Nat} {b : Bit} {rest : List Command}
    (hc : s.cmds = .memWrite (BitVec.ofNat 32 a) (b.setWidth 32) :: rest) (ha : a < s.cfg.memSize) :
    step s = .next ((s.writeMem a b).answer rest (.of .ok 0)) := by
  have hmem := s.cfg.memSize_le
  have haddr : (BitVec.ofNat 32 a).toNat = a := (BitVec.toNat_ofNat a 32).trans (Nat.mod_eq_of_lt (by omega))
  have hp := performCommand_memWrite_of_lt (b.setWidth 32) (haddr.symm ▸ ha)
  rw [haddr, extractLsb'_setWidth_bit] at hp
  exact step_of_performCommand hc hp

/-- The MEM_WRITEs of an input that fits are all answered OK and change nothing but the memory. -/
theorem stepTimes_inputCommands {bs : List Bit} {a : Nat} {s : State} {rest : List Command}
    (hc : s.cmds = inputCommands a bs ++ rest) (hfit : a + bs.length ≤ s.cfg.memSize) :
    stepTimes bs.length s = .next { s with
      mem := s.mem.writeBits a bs, cmds := rest,
      responses := List.replicate bs.length (.of .ok 0) ++ s.responses } := by
  induction bs generalizing a s with
  | nil =>
    obtain rfl : s.cmds = rest := hc
    rfl
  | cons b bs ih =>
    rw [List.length_cons] at hfit
    have hstep := step_inputCommand hc (by omega)
    have hroom : a + 1 + bs.length ≤ s.cfg.memSize := by omega
    have hrest :=
      ih (s := (s.writeMem a b).answer (inputCommands (a + 1) bs ++ rest) (.of .ok 0)) rfl hroom
    rw [List.length_cons, stepTimes_succ_of_next _ hstep, List.replicate_succ', List.append_assoc]
    exact hrest

end Sys2Proof.Machine

namespace Sys2Proof.Proofs

open Sys2Proof.Machine

/-- Settles O30: from the invariants the two sequencers answer, and the commands return their `LAST`. -/
theorem forwardAndBackwardCommandsAnswerLast : Obligations.ForwardAndBackwardCommandsAnswerLast := by
  intro s rest hi
  constructor
  · intro hc
    obtain ⟨t, ht⟩ := hi.forward_answers
    exact ⟨t, ht, forward_last_mem ht, step_of_answerLast hc (performCommand_forward ht)⟩
  · intro hc
    obtain ⟨t, ht⟩ := hi.backward_answers
    exact ⟨t, ht, backward_last_mem ht, step_of_answerLast hc (performCommand_backward ht)⟩

/-- Settles O31: by induction on the slots left, Forwards reach L or a fault, and the loop is those Forwards. -/
theorem runIsForwardsUntilDoneOrFault : Obligations.RunIsForwardsUntilDoneOrFault := by
  intro s hi
  refine ⟨run_of_done, hi.run_is_forwards, fun rest hc => ?_⟩
  obtain ⟨t, ht⟩ := hi.run_answers
  exact ⟨t, ht, step_of_answerLast hc (performCommand_run ht)⟩

/-- Settles O41: L Forwards from slot 0 stand at L with the latch as it was, and the last of them is where RUN ends. -/
theorem faultFreeRunIsComplete : Obligations.FaultFreeRunIsComplete := by
  intro s t _ hzero hflt h
  obtain ⟨hstep, -, hprog⟩ := forwardsOk_step h
  have hlen : t.progLen = s.progLen := congrArg List.length hprog
  have hdone : t.done = true := (State.done_iff t).2 (by omega)
  have hclear : t.flt = 0 := (forwardsOk_flt h).trans hflt
  refine ⟨by simp [State.complete, hdone, hclear], by simp [State.faulted, hclear], fun hpos => ?_⟩
  obtain ⟨n, hn⟩ := Nat.exists_eq_succ_of_ne_zero hpos.ne'
  rw [hn] at h
  obtain ⟨u, hu, ht, -⟩ := (forwardsOk_succ_last_iff n s t).1 h
  exact run_of_forwards hu ht (by omega) (.inr hdone)

/-- Settles O42: the bit array's write is the only one. -/
theorem memWriteWritesOneBit : Obligations.MemWriteWritesOneBit := by
  intro s a v rest hc hm
  refine ⟨fun ha => ⟨s.mem.write a.toNat (v.extractLsb' 0 1),
    step_of_performCommand hc (performCommand_memWrite_of_lt v ha), fun b => ?_⟩,
    fun ha => step_of_badArgument hc (performCommand_memWrite_of_le v ha)⟩
  rw [Memory.read_write hm, extractLsb'_zero_one]

/-- Settles O44: the invariants keep every number of the map below 2^32. -/
theorem readRegAnswersRegisterMap : Obligations.ReadRegAnswersRegisterMap := by
  intro s i rest hi hc
  constructor
  · intro h
    obtain ⟨d, hd, hstatus, hmap⟩ := hi.register_of_lt h
    exact ⟨d, step_of_performCommand hc (performCommand_readReg_of_some hd),
      fun hzero => (hstatus hzero).trans s.status_toNat, hmap⟩
  · exact fun h => step_of_badArgument hc (performCommand_readReg_of_none (s.register_reserved h))

/-- Settles O46: from the invariants every command answers, and no command but the answer itself touches the host's two
ends. -/
theorem everyCommandReturnsOneResponse : Obligations.EveryCommandReturnsOneResponse := by
  intro s c rest hi hc
  obtain ⟨u, r, hp⟩ := hi.performCommand_answers c
  obtain ⟨-, hresp⟩ := performCommand_keepsHost hp
  obtain ⟨-, hresult⟩ := performCommand_inv hi hp
  exact ⟨_, r, step_of_performCommand hc hp, rfl, congrArg (r :: ·) hresp, hresult,
    (performCommand_data hp).resolve_left⟩

/-- Settles O47: issuing commutes with performing the oldest command, and the answer takes off that one only. -/
theorem laterCommandsDoNotAffectStep : Obligations.LaterCommandsDoNotAffectStep := by
  intro s t cs hne h
  rcases step_next h with ⟨hnil, -⟩ | ⟨c, rest, u, r, hc, hp, rfl⟩
  · exact absurd hnil hne
  · have hissue : (s.issue cs).cmds = c :: (rest ++ cs) := congrArg (· ++ cs) hc
    exact step_of_performCommand hissue (performCommand_issue cs hp)

/-- Settles O50: RESET leaves an empty memory, and each MEM_WRITE adds its bit. -/
theorem trialOpeningWritesInput : Obligations.TrialOpeningWritesInput := by
  intro s input rest hfit hc
  have hreset : step s = .next (s.resetEngine.answer (inputCommands 0 input ++ rest) (.of .ok 0)) :=
    step_of_performCommand hc performCommand_reset
  have hwrites := stepTimes_inputCommands (a := 0) (bs := input) (rest := rest)
    (s := s.resetEngine.answer (inputCommands 0 input ++ rest) (.of .ok 0)) rfl (by simpa using hfit)
  rw [Nat.add_comm, stepTimes_succ_of_next _ hreset]
  exact ⟨_, hwrites, rfl, rfl, rfl, rfl, rfl, rfl, rfl, Memory.read_writeBits Memory.wf_nil 0 input⟩

/-- Settles O12: the reset state's fields, and `done` from `step` = 0. -/
theorem resetCommandClearsEngine : Obligations.ResetCommandClearsEngine := by
  intro s rest hc
  have hdone : s.resetEngine.done = decide (s.progLen = 0) := by
    rw [Bool.eq_iff_iff, State.done_iff, decide_eq_true_iff]
    exact eq_comm
  have hphase : s.resetEngine.phase = if s.progLen = 0 then .done else .ready := by
    simp [State.phase, hdone]
  exact ⟨_, step_of_performCommand hc performCommand_reset, Memory.read_nil, rfl, rfl, rfl, hdone, hphase, rfl, rfl,
    Memory.read_nil, rfl, rfl, rfl, rfl, rfl⟩

/-- Settles O13: the words that fit replace the program and the engine is reset with them. -/
theorem loadProgramStoresWordsAndResets : Obligations.LoadProgramStoresWordsAndResets :=
  fun _ _ _ hc => ⟨fun hlen => step_of_badArgument hc (performCommand_loadProgram_of_lt hlen),
    fun hlen => ⟨_, step_of_performCommand hc (performCommand_loadProgram_of_le hlen), rfl, rfl, Memory.read_nil, rfl,
      rfl, rfl, rfl, rfl, Memory.read_nil, rfl, rfl, rfl⟩⟩

/-- Settles O29: below L a Forward is `exec` of the fetched word's instruction. -/
theorem stepRunsDecodedInstruction : Obligations.StepRunsDecodedInstruction := by
  intro s rest i hc hk hi
  obtain ⟨w, hw, rfl⟩ := Option.map_eq_some_iff.1 hi
  have hperform : performCommand .forward s = respondLast (exec (decode w) s) :=
    congrArg respondLast (forward_of_fetch hk hw)
  rw [step_eq_processCommand, processCommand_cons hc, hperform]
  cases exec (decode w) s <;> rfl

/-- Settles O43: zero-extending a bit keeps its value. -/
theorem memReadAnswersBit : Obligations.MemReadAnswersBit := by
  intro s a rest hc
  refine ⟨fun ha => ⟨(s.mem.read a.toNat).setWidth 32, BitVec.toNat_setWidth_of_le (by omega),
    step_of_performCommand hc (performCommand_memRead_of_lt ha)⟩,
    fun ha => step_of_badArgument hc (performCommand_memRead_of_le ha)⟩

/-- Settles O45: each of the four arguments has its own range check. -/
theorem badArgumentChangesNothing : Obligations.BadArgumentChangesNothing := by
  intro s c rest hc hbad
  refine step_of_badArgument hc ?_
  rcases hbad with ⟨a, v, rfl, ha⟩ | ⟨a, rfl, ha⟩ | ⟨i, rfl, h⟩ | ⟨ws, rfl, hlen⟩
  · exact performCommand_memWrite_of_le v ha
  · exact performCommand_memRead_of_le ha
  · exact performCommand_readReg_of_none (s.register_reserved h)
  · exact performCommand_loadProgram_of_lt hlen

end Sys2Proof.Proofs
end

section
/-! PROOFS for 60_exceptions.md: which instruction raises which fault (R141), what taking a fault writes (R142), and
what repeating the faulting command does (section 2, R145). -/

namespace Sys2Proof.Machine

/-! ### The codes of the two faults (R143) -/

/-- The two addressing faults have different codes in `LAST`. -/
theorem AddressFault.result_code_inj {f g : AddressFault} (h : f.result.code = g.result.code) : f = g := by
  cases f <;> cases g <;> simp at h ⊢

/-! ### Which instruction raises which fault (R141) -/

section
variable {s : State} {i : Instr}

theorem raises_outOfMemory_iff :
    Raises s i .outOfMemory ↔ ∃ n, i = .inc n ∧ s.cfg.memSize ≤ s.addr + n := by
  constructor
  · intro h
    cases h with
    | inc n h => exact ⟨n, rfl, h⟩
  · rintro ⟨n, rfl, h⟩
    exact .inc n h

theorem raises_negativeAddress_iff :
    Raises s i .negativeAddress ↔ ∃ n, i = .cdec n ∧ s.store = 1 ∧ s.addr < n := by
  constructor
  · intro h
    cases h with
    | cdec n hs h => exact ⟨n, rfl, hs, h⟩
  · rintro ⟨n, rfl, hs, h⟩
    exact .cdec n hs h

theorem undoRaises_negativeAddress_iff :
    UndoRaises s i .negativeAddress ↔ ∃ n, i = .inc n ∧ s.addr < n := by
  constructor
  · intro h
    cases h with
    | inc n h => exact ⟨n, rfl, h⟩
  · rintro ⟨n, rfl, h⟩
    exact .inc n h

theorem undoRaises_outOfMemory_iff :
    UndoRaises s i .outOfMemory ↔ ∃ n, i = .cdec n ∧ s.store = 1 ∧ s.cfg.memSize ≤ s.addr + n := by
  constructor
  · intro h
    cases h with
    | cdec n hs h => exact ⟨n, rfl, hs, h⟩
  · rintro ⟨n, rfl, hs, h⟩
    exact .cdec n hs h

end

/-! ### What a fault code in `LAST` says (the third case of `forward_next` and of `backward_next`) -/

/-- A Forward that answers a fault code took that fault on the fetched instruction. -/
theorem forward_faults {s t : State} (h : forward s = .next t) (hfault : isFaultCode t.last = true) :
    ∃ w f, s.step < s.progLen ∧ s.fetch s.step = some w ∧ Raises s (decode w) f ∧ t = s.takeAddressFault f := by
  rcases forward_next h with ⟨-, rfl⟩ | ⟨w, i, hk, hw, rfl, ⟨u, -, rfl⟩ | ⟨f, hf, rfl⟩⟩
  · exact absurd hfault (by simp [isFaultCode])
  · exact absurd hfault (by simp [isFaultCode])
  · exact ⟨w, f, hk, hw, hf, rfl⟩

/-- A Backward that answers a fault code took that fault on the undo of the slot below `step`. -/
theorem backward_faults {s t : State} (h : backward s = .next t) (hfault : isFaultCode t.last = true) :
    ∃ k w f, s.step = k + 1 ∧ s.fetch k = some w ∧ UndoRaises s (decode w) f ∧ t = s.takeAddressFault f := by
  rcases backward_next h with ⟨-, rfl⟩ | ⟨k, w, i, hs, hw, rfl, ⟨u, -, rfl⟩ | ⟨f, hf, rfl⟩⟩
  · exact absurd hfault (by simp [isFaultCode])
  · exact absurd hfault (by simp [isFaultCode])
  · exact ⟨k, w, f, hs, hw, hf, rfl⟩

theorem forward_of_raises {s : State} {w : Word} {f : AddressFault} (hk : s.step < s.progLen)
    (hw : s.fetch s.step = some w) (h : Raises s (decode w) f) : forward s = .next (s.takeAddressFault f) :=
  (forward_of_fetch hk hw).trans (exec_of_raises h)

/-- A Forward answers a fault's code exactly where the fetched instruction raises that fault. -/
theorem forward_last_iff_raises {s t : State} {w : Word} (h : forward s = .next t) (hk : s.step < s.progLen)
    (hw : s.fetch s.step = some w) (f : AddressFault) : t.last = f.result.code ↔ Raises s (decode w) f := by
  constructor
  · intro hlast
    obtain ⟨w', g, -, hw', hg, rfl⟩ := forward_faults h (hlast ▸ f.isFaultCode_result)
    obtain rfl : w' = w := Option.some.inj (hw'.symm.trans hw)
    obtain rfl : g = f := AddressFault.result_code_inj hlast
    exact hg
  · intro hf
    obtain rfl : s.takeAddressFault f = t := Host.Outcome.next.inj ((forward_of_raises hk hw hf).symm.trans h)
    rfl

/-- A Backward answers a fault's code exactly where the undo of the slot below `step` raises that fault. -/
theorem backward_last_iff_undoRaises {s t : State} {k : Nat} {w : Word} (h : backward s = .next t) (hs : s.step = k + 1)
    (hw : s.fetch k = some w) (f : AddressFault) : t.last = f.result.code ↔ UndoRaises s (decode w) f := by
  constructor
  · intro hlast
    obtain ⟨k', w', g, hs', hw', hg, rfl⟩ := backward_faults h (hlast ▸ f.isFaultCode_result)
    obtain rfl : k' = k := Nat.succ.inj (hs'.symm.trans hs)
    obtain rfl : w' = w := Option.some.inj (hw'.symm.trans hw)
    obtain rfl : g = f := AddressFault.result_code_inj hlast
    exact hg
  · intro hf
    obtain rfl : s.takeAddressFault f = t := Host.Outcome.next.inj ((backward_of_raises hs hw rfl hf).symm.trans h)
    rfl

/-! ### The fault latch when a fault is taken (R142, 10_state.md R27) -/

theorem State.takeAddressFault_flt_ne_zero (s : State) (f : AddressFault) : (s.takeAddressFault f).flt ≠ 0 := by
  rw [State.takeAddressFault_flt]
  split
  · exact f.code_ne_zero
  · assumption

/-- Where the latch is set and `LAST` has the code already, taking the fault writes nothing new. -/
theorem State.takeAddressFault_eq_self {s : State} {f : AddressFault} (hflt : s.flt ≠ 0)
    (hlast : s.last = f.result.code) : s.takeAddressFault f = s := by
  rw [State.takeAddressFault, if_neg hflt, ← hlast]

/-! ### The same fault again (R145)

The fault conditions read `addr`, `store`, MEM_SIZE and the program: nothing that the fault or the host's writes to
memory change. -/

section
variable {s : State} {f : AddressFault} (m : Memory)

theorem Raises.again {i : Instr} (h : Raises s i f) : Raises { s.takeAddressFault f with mem := m } i f := by
  cases h with
  | inc n h => exact .inc n h
  | cdec n hs h => exact .cdec n hs h

theorem UndoRaises.again {i : Instr} (h : UndoRaises s i f) :
    UndoRaises { s.takeAddressFault f with mem := m } i f := by
  cases h with
  | inc n h => exact .inc n h
  | cdec n hs h => exact .cdec n hs h

/-- The first taking sets the latch, so the second one writes only what is there. -/
theorem State.takeAddressFault_again (s : State) (f : AddressFault) :
    State.takeAddressFault { s.takeAddressFault f with mem := m } f = { s.takeAddressFault f with mem := m } :=
  State.takeAddressFault_eq_self (s.takeAddressFault_flt_ne_zero f) rfl

end

end Sys2Proof.Machine

namespace Sys2Proof.Proofs

open Sys2Proof.Machine

/-- Settles O35: from the invariants both sequencers answer, and `LAST` names the fault that the slot's instruction (its
undo) raises. -/
theorem faultsRaisedExactlyWhenAddressLeavesRange : Obligations.FaultsRaisedExactlyWhenAddressLeavesRange := by
  intro s w hi
  constructor
  · intro hw
    obtain ⟨hk, -⟩ := List.getElem?_eq_some_iff.1 hw
    obtain ⟨t, ht⟩ := hi.forward_answers
    have hlast := forward_last_iff_raises ht hk hw
    exact ⟨t, ht, (hlast .outOfMemory).trans raises_outOfMemory_iff,
      (hlast .negativeAddress).trans raises_negativeAddress_iff⟩
  · intro k hs hw
    obtain ⟨t, ht⟩ := hi.backward_answers
    have hlast := backward_last_iff_undoRaises ht hs hw
    exact ⟨t, ht, (hlast .negativeAddress).trans undoRaises_negativeAddress_iff,
      (hlast .outOfMemory).trans undoRaises_outOfMemory_iff⟩

/-- Settles O36: a fault code in `LAST` says that the sequencer took that fault in the state as it was, and the command
returns what `LAST` holds. -/
theorem faultChangesOnlyStatusRegisters : Obligations.FaultChangesOnlyStatusRegisters := by
  intro s t rest
  constructor
  · intro h hfault
    obtain ⟨-, f, -, -, -, ht⟩ := forward_faults h hfault
    exact ⟨⟨f, ht⟩, fun hc => step_of_answerLast hc (performCommand_forward h)⟩
  · intro h hfault
    obtain ⟨-, -, f, -, -, -, ht⟩ := backward_faults h hfault
    exact ⟨⟨f, ht⟩, fun hc => step_of_answerLast hc (performCommand_backward h)⟩

/-- Settles O38: the fault left `step`, the program and the fault's condition as they were, and taking it again changes
nothing. -/
theorem repeatedFaultIsInert : Obligations.RepeatedFaultIsInert := by
  intro s t
  constructor
  · intro h hfault m
    obtain ⟨w, f, hk, hw, hf, rfl⟩ := forward_faults h hfault
    have hagain := forward_of_raises (s := { s.takeAddressFault f with mem := m }) hk hw (hf.again m)
    rwa [s.takeAddressFault_again m f] at hagain
  · intro h hfault m
    obtain ⟨k, w, f, hs, hw, hf, rfl⟩ := backward_faults h hfault
    have hagain := backward_of_raises (s := { s.takeAddressFault f with mem := m }) hs hw rfl (hf.again m)
    rwa [s.takeAddressFault_again m f] at hagain

end Sys2Proof.Proofs
end

section
/-! PROOFS for 70_reset_and_hazards.md: reset and power-on (section 1, R160 to R162), the order of effects and
repeated faults (section 3, R165 and R168), and progress (section 4, R170). -/

namespace Sys2Proof.Machine

/-! ### The reset state from the parameters and the program (R160 to R162) -/

/-- `Reset()` leaves a power-on engine with the program kept, so the state before it matters only by the parameters and
the program. -/
theorem State.resetEngine_eq_powerOn (s : State) :
    s.resetEngine = { State.powerOn s.cfg with prog := s.prog, cmds := s.cmds, responses := s.responses } := rfl

/-! ### Completed instructions one after the other (R165) -/

/-- `INV` raises no fault, so a next state has the addressed bit flipped. -/
theorem exec_inv_next {s t : State} (h : exec .inv s = .next t) :
    t = { s with mem := s.mem.flip s.addr, step := s.step + 1, last := 0 } := by
  rcases exec_next h with ⟨u, hu, rfl⟩ | ⟨f, hf, -⟩
  · cases hu
    rfl
  · cases hf

/-- `LOAD` raises no fault, so a next state has the addressed bit in `store`, in either mode. -/
theorem exec_load_next {s t : State} (h : exec .load s = .next t) :
    t.store = s.mem.read s.addr ∧ t.addr = s.addr := by
  rcases exec_next h with ⟨u, hu, rfl⟩ | ⟨f, hf, -⟩
  · cases hu <;> exact ⟨rfl, rfl⟩
  · cases hf

/-- A `CDEC` whose count `addr` can give completes in either case of its gate. -/
theorem exec_cdec_addr {n : Nat} {s : State} (h : n ≤ s.addr) :
    ∃ t, exec (.cdec n) s = .next t ∧ t.addr = if s.store = 1 then s.addr - n else s.addr := by
  by_cases hs : s.store = 1
  · exact ⟨_, exec_cdec_of_le hs h, (if_pos hs).symm⟩
  · exact ⟨_, exec_of_completes (.cdecGated n hs), (if_neg hs).symm⟩

/-! ### A faulting FORWARD issued again (R168) -/

section
variable {s t : State}

/-- No fault condition reads the host's two ends. -/
theorem Raises.answer {i : Instr} {f : AddressFault} (h : Raises s i f) (rest : List Command) (r : Response) :
    Raises (s.answer rest r) i f := by
  cases h with
  | inc n h => exact .inc n h
  | cdec n hs h => exact .cdec n hs h

theorem forward_answer_of_fault (h : forward s = .next t) (hfault : isFaultCode t.last = true) (rest : List Command)
    (r : Response) : forward (s.answer rest r) = .next (t.answer rest r) := by
  obtain ⟨w, f, hk, hw, hf, rfl⟩ := forward_faults h hfault
  exact forward_of_raises (s := s.answer rest r) hk hw (hf.answer rest r)

/-- Where a Forward faults and changes nothing, any number of FORWARDs only returns that fault as often. -/
theorem stepTimes_forwards_of_fault {n : Nat} {rest : List Command} (h : forward s = .next s)
    (hfault : isFaultCode s.last = true) (hc : s.cmds = List.replicate n .forward ++ rest) :
    stepTimes n s = .next { s with
      cmds := rest, responses := List.replicate n { result := s.last, data := 0 } ++ s.responses } := by
  induction n generalizing s with
  | zero =>
    obtain rfl : s.cmds = rest := hc
    rfl
  | succ n ih =>
    have hstep := step_of_performCommand hc (performCommand_forward h)
    have hagain := forward_answer_of_fault h hfault (List.replicate n .forward ++ rest) ⟨s.last, 0⟩
    have hrest := ih hagain hfault rfl
    rw [stepTimes_succ_of_next _ hstep, List.replicate_succ', List.append_assoc]
    exact hrest

end

end Sys2Proof.Machine

namespace Sys2Proof.Proofs

open Sys2Proof.Machine

/-- Settles O59: with no command a step changes nothing, and from the invariants every command answers; RUN does so
because its Forwards reach L or a fault. -/
theorem everyStepAnswersNextState : Obligations.EveryStepAnswersNextState := by
  intro s hi
  cases hc : s.cmds with
  | nil => exact ⟨s, processCommand_nil hc⟩
  | cons c rest =>
    obtain ⟨u, r, hp⟩ := hi.performCommand_answers c
    exact ⟨_, step_of_performCommand hc hp⟩

/-- Settles O14: both steps leave the power-on state with the same parameters and program. -/
theorem postConstructionEqualsPostReset : Obligations.PostConstructionEqualsPostReset := by
  intro s s2 ws rest rest2 hc hlen hc2 hprog hcfg
  refine ⟨_, _, step_of_performCommand hc (performCommand_loadProgram_of_le hlen),
    step_of_performCommand hc2 performCommand_reset, ?_⟩
  rw [s2.resetEngine_eq_powerOn, hprog, hcfg]
  rfl

/-- Settles O22: the second instruction reads the memory (the `store`) that the first one left. -/
theorem nextInstructionSeesEffects : Obligations.NextInstructionSeesEffects := by
  intro s t hm
  constructor
  · intro hinv u hload
    obtain rfl := exec_inv_next hinv
    obtain ⟨hstore, -⟩ := exec_load_next hload
    exact hstore.trans ((Memory.read_flip hm s.addr s.addr).trans (if_pos rfl))
  · intro hload n hn
    obtain ⟨hstore, haddr⟩ := exec_load_next hload
    rw [← hstore, ← haddr]
    exact exec_cdec_addr (haddr.symm ▸ hn)

/-- Settles O39: the first FORWARD takes the fault, and the others repeat it in the state the first left (R145). -/
theorem fixedCountAfterFaultRepeatsResponse : Obligations.FixedCountAfterFaultRepeatsResponse := by
  intro n s t rest hc h hfault
  have hstep := step_of_performCommand hc (performCommand_forward h)
  have hinert : forward t = .next t := (repeatedFaultIsInert s t).1 h hfault t.mem
  have hagain := forward_answer_of_fault hinert hfault (List.replicate n .forward ++ rest) ⟨t.last, 0⟩
  obtain ⟨-, hresp⟩ := forward_keepsHost h
  rw [stepTimes_succ_of_next n hstep, List.replicate_succ', List.append_assoc, ← hresp]
  exact stepTimes_forwards_of_fault hagain hfault rfl

/-- Settles O11: the power-on state has `step` = L = 0, so a Forward is the no-op at done and a Backward the no-op at
the start. -/
theorem powerOnEngineIsDone : Obligations.PowerOnEngineIsDone :=
  fun _ => ⟨rfl, Memory.read_nil, rfl, rfl, rfl, rfl, rfl, Memory.read_nil, rfl, forward_of_done rfl,
    backward_of_step_zero rfl⟩

end Sys2Proof.Proofs
end

section
/-! PROOFS for 00_scope.md section 3 and log entry 8: where an access names a bit or a slot that does not exist, the
model stops. From `State.Inv` no step does so (`everyStepAnswersNextState`). -/

namespace Sys2Proof.Machine

/-! ### The operand operations outside their range -/

section
variable {s : State}

theorem flipAddressed_of_le (h : s.cfg.memSize ≤ s.addr) :
    flipAddressed s = .stopped (.noSuchAddress s.addr) := by
  rcases flipAddressed_cases s with ⟨hlt, -⟩ | ⟨-, e⟩
  · omega
  · exact e

theorem sampleAddressed_of_le (h : s.cfg.memSize ≤ s.addr) :
    sampleAddressed s = .stopped (.noSuchAddress s.addr) := by
  rcases sampleAddressed_cases s with ⟨hlt, -⟩ | ⟨-, e⟩
  · omega
  · exact e

/-- The slot is checked before the bit, so a missing bit is the reason only where the slot exists. -/
theorem traceThenSample_of_missing_bit (hk : s.step < s.cfg.progCap) (h : s.cfg.memSize ≤ s.addr) :
    traceThenSample s = .stopped (.noSuchAddress s.addr) := by
  rcases traceThenSample_cases s with ⟨-, hlt, -⟩ | ⟨-, -, e⟩ | ⟨hle, -⟩
  · omega
  · exact e
  · omega

theorem traceThenSample_of_missing_slot (hk : s.cfg.progCap ≤ s.step) :
    traceThenSample s = .stopped (.noSuchSlot s.step) := by
  rcases traceThenSample_cases s with ⟨hlt, -⟩ | ⟨hlt, -⟩ | ⟨-, e⟩
  · omega
  · omega
  · exact e

theorem restoreFromTrace_of_le {k : Nat} (hk : s.cfg.progCap ≤ k) :
    restoreFromTrace k s = .stopped (.noSuchSlot k) := by
  rcases restoreFromTrace_cases k s with ⟨hlt, -⟩ | ⟨-, e⟩
  · omega
  · exact e

end

/-! ### When an instruction or an undo stops -/

/-- When the instruction `i` stops in `s`, and why: the third outcome, beside `Completes` and `Raises`. -/
inductive Stops (s : State) : Instr → Fault → Prop where
  | inv (h : s.cfg.memSize ≤ s.addr) : Stops s .inv (.noSuchAddress s.addr)
  | loadResample (hm : s.cfg.undoMode = .resample) (h : s.cfg.memSize ≤ s.addr) :
      Stops s .load (.noSuchAddress s.addr)
  | loadTrace (hm : s.cfg.undoMode = .trace) (hk : s.step < s.cfg.progCap) (h : s.cfg.memSize ≤ s.addr) :
      Stops s .load (.noSuchAddress s.addr)
  | loadTraceSlot (hm : s.cfg.undoMode = .trace) (hk : s.cfg.progCap ≤ s.step) : Stops s .load (.noSuchSlot s.step)

/-- When the undo of `i` at slot `k` stops in `s`, and why. -/
inductive UndoStops (s : State) (k : Nat) : Instr → Fault → Prop where
  | inv (h : s.cfg.memSize ≤ s.addr) : UndoStops s k .inv (.noSuchAddress s.addr)
  | loadResample (hm : s.cfg.undoMode = .resample) (h : s.cfg.memSize ≤ s.addr) :
      UndoStops s k .load (.noSuchAddress s.addr)
  | loadTraceSlot (hm : s.cfg.undoMode = .trace) (hk : s.cfg.progCap ≤ k) : UndoStops s k .load (.noSuchSlot k)

theorem exec_of_stops {s : State} {i : Instr} {r : Fault} (h : Stops s i r) : exec i s = .fault r := by
  cases h with
  | inv h => simp only [exec, execInv, flipAddressed_of_le h, commit_stopped]
  | loadResample hm h => simp only [exec, execLoad, hm, sampleAddressed_of_le h, commit_stopped]
  | loadTrace hm hk h => simp only [exec, execLoad, hm, traceThenSample_of_missing_bit hk h, commit_stopped]
  | loadTraceSlot hm hk => simp only [exec, execLoad, hm, traceThenSample_of_missing_slot hk, commit_stopped]

theorem undo_of_stops {s : State} {k : Nat} {i : Instr} {r : Fault} (h : UndoStops s k i r) :
    undo i k s = .fault r := by
  cases h with
  | inv h => simp only [undo, undoInv, flipAddressed_of_le h, commit_stopped]
  | loadResample hm h => simp only [undo, undoLoad, hm, sampleAddressed_of_le h, commit_stopped]
  | loadTraceSlot hm hk => simp only [undo, undoLoad, hm, restoreFromTrace_of_le hk, commit_stopped]

/-! ### The sequencers at a slot at or above L -/

section
variable {s : State}

theorem forward_of_gt (h : s.progLen < s.step) : forward s = .fault (.noSuchSlot s.step) := by
  have hdone : s.done = false := (State.done_eq_false_iff s).2 h.ne'
  have hfetch : s.fetch s.step = none := (fetch_eq_none_iff s s.step).2 h.le
  simp [forward, hdone, hfetch]

/-- Above L there is no room for a Forward: L − step is 0, and the loop stops before its first (log entry 17). -/
theorem run_of_gt (h : s.progLen < s.step) : run s = .fault (.noSuchSlot s.step) := by
  have hdone : s.done = false := (State.done_eq_false_iff s).2 h.ne'
  have hfuel : s.progLen - s.step = 0 := Nat.sub_eq_zero_of_le h.le
  simp [run, hdone, hfuel, runLoop]

theorem backward_of_missing_slot {k : Nat} (hs : s.step = k + 1) (h : s.progLen ≤ k) :
    backward s = .fault (.noSuchSlot k) := by
  have hfetch : s.fetch k = none := (fetch_eq_none_iff s k).2 h
  simp [backward, hs, hfetch]

end

end Sys2Proof.Machine

namespace Sys2Proof.Proofs

open Sys2Proof.Machine

/-- Settles O19: each clause is one case of `Stops` or `UndoStops`, or a sequencer at a slot that is not fetched. -/
theorem accessToMissingBitOrSlotStops : Obligations.AccessToMissingBitOrSlotStops := fun _ _ =>
  ⟨fun h => ⟨exec_of_stops (.inv h), undo_of_stops (.inv h)⟩,
    fun h hm => ⟨exec_of_stops (.loadResample hm h), undo_of_stops (.loadResample hm h)⟩,
    fun h hm hk => exec_of_stops (.loadTrace hm hk h),
    fun hm hk => exec_of_stops (.loadTraceSlot hm hk),
    fun hm hk => undo_of_stops (.loadTraceSlot hm hk),
    fun h => ⟨forward_of_gt h, run_of_gt h⟩,
    backward_of_missing_slot⟩

end Sys2Proof.Proofs
end
